-- ==== Sys2Proof/Word.lean ====
section
/-! DEFINITION. The words of the block: an encoded byte (spec/30_encoding.md R60), an integer value
(spec/00_scope.md R5) and a command word (spec/30_encoding.md R66). -/

namespace Sys2Proof

/-- One byte of a port or a stream (spec/20_memory.md R42, R43). -/
abbrev Byte := BitVec 8

/-- An unsigned integer value, `W = 64` bits wide on this hardware (spec/00_scope.md R5). -/
abbrev Value := BitVec 64

/-- A command word, `W + 2 = 66` bits: `OP` in bits 65:64, `VALUE` in bits 63:0 (spec/30_encoding.md R66). -/
abbrev CmdWord := BitVec 66

end Sys2Proof
end

