-- ==== Sys2Proof/Config.lean ====
section
/-! DEFINITION. What the hardware fixes (spec/00_scope.md R5, R6) and the free values: what the spec leaves
unspecified and the machine goes on (spec/93_implementation_defined.md I7 to I9). -/

namespace Sys2Proof.Config

/-- `W`, the value width of this hardware (spec/00_scope.md R5; 92_eei_decisions.md D1). -/
def valueWidth : Nat := 64

/-- The width of a command word, `W + 2` (spec/30_encoding.md R66). -/
def cmdWidth : Nat := valueWidth + 2

/-- `GROUP_BITS`: data bits per encoded byte (spec/00_scope.md R6). -/
def groupBits : Nat := 7

/-- `CONT`: the continuation flag's mask (spec/00_scope.md R6). -/
def cont : Byte := 0x80#8

/-- `GMASK`: the group's mask (spec/00_scope.md R6). -/
def gmask : Byte := 0x7F#8

/-- `DEC_SHIFT_CAP`: decoding continues only while the shift is at most this (spec/00_scope.md R6). -/
def decShiftCap : Nat := 35

/-- `DEC_MAX_BYTES`: the most bytes one decode reads (spec/00_scope.md R6). -/
def decMaxBytes : Nat := 6

/-- `ENC_SIZE_CAP`: encoding continues only while the size is at most this (spec/00_scope.md R6). -/
def encSizeCap : Nat := 5

/-- `ENC_MAX_BYTES`: the most bytes one encode emits (spec/00_scope.md R6). -/
def encMaxBytes : Nat := 6

/-- FREE VALUE (DESIGN CHOICE, log entry 2, safe): what a `Reset` step leaves in `ACC`
(spec/70_reset_and_hazards.md R150). No body: nothing can be proved of it. -/
opaque freeAcc : Nat → Value

/-- FREE VALUE (DESIGN CHOICE, log entry 2, safe): what a `Reset` step leaves in `SHIFT`
(spec/70_reset_and_hazards.md R150). -/
opaque freeShift : Nat → BitVec 6

/-- FREE VALUE (DESIGN CHOICE, log entry 2, safe): what a `Reset` step leaves in `SIZE`
(spec/70_reset_and_hazards.md R150). -/
opaque freeSize : Nat → BitVec 3

/-- FREE VALUE (DESIGN CHOICE, log entry 2, safe): what a `Reset` step leaves in `RESULT`
(spec/70_reset_and_hazards.md R150). -/
opaque freeResult : Nat → Value

/-- FREE VALUE (DESIGN CHOICE, log entry 2, safe): `OUT_BYTE` while `OUT_VALID` is false
(spec/10_state.md R29; 93_implementation_defined.md I9). -/
opaque freeOutByte : Nat → Byte

end Sys2Proof.Config
end

