-- ==== Sys2Proof/Syntax.lean ====
section
/-! DEFINITION. The command set: one constructor per row of spec/opcode_table.json (spec/30_encoding.md R67,
R69, R73). Every command word has the one format `CMD` (R66), so every constructor holds the word's `VALUE`. -/

namespace Sys2Proof

/-- A command word read by its `OP` field (spec/30_encoding.md R67). -/
inductive Instr where
  /-- `LEN7 v`, `OP = 0b00`: the length calculator (spec/40_length.md R80). -/
  | len7 (value : Value)
  /-- `DEC7`, `OP = 0b01`: the decoder (spec/41_decode.md R90). `value` is the ignored `VALUE` field (30_encoding.md R68);
  it is kept so that no bit of the word is lost. -/
  | dec7 (value : Value)
  /-- `ENC7 v`, `OP = 0b10`: the encoder (spec/42_encode.md R110). -/
  | enc7 (value : Value)
  /-- The reserved encoding `OP = 0b11`, with any `VALUE` (spec/30_encoding.md R69, 60_exceptions.md R131). -/
  | reserved (value : Value)
  deriving DecidableEq, Repr

/-- The `VALUE` field an instruction was written with (spec/30_encoding.md R66). -/
def Instr.value : Instr → Value
  | .len7 v => v
  | .dec7 v => v
  | .enc7 v => v
  | .reserved v => v

/-- The `OP` field of an instruction (spec/30_encoding.md R67, R69). -/
def Instr.op : Instr → BitVec 2
  | .len7 _ => 0b00#2
  | .dec7 _ => 0b01#2
  | .enc7 _ => 0b10#2
  | .reserved _ => 0b11#2

end Sys2Proof
end

