-- ==== Sys2Proof/WellFormed.lean ====
section
/-! DEFINITION. Which terms are well formed. An instruction's operand is a 64-bit vector, so every instruction
is well formed by its type (spec/30_encoding.md R68: "Values wider than `W` bits cannot be presented"). The
checks that can fail are those on NUMBERS before they are put on a port: a raw command word (R66) and the lines
of a host program (R71). -/

namespace Sys2Proof

/-- The operand fits the `VALUE` field (spec/30_encoding.md R68). True of every instruction, by the operand's type. -/
def Instr.wellFormed (i : Instr) : Bool :=
  decide (i.value.toNat < 2 ^ Config.valueWidth)

/-- A number that fits the command port, `W + 2` bits (spec/30_encoding.md R66). -/
def fitsCommandPort (w : Nat) : Bool :=
  decide (w < 2 ^ Config.cmdWidth)

/-- One line of a host program, one interaction per line (spec/30_encoding.md R71). -/
inductive HostLine where
  /-- `LEN7 <v>`. -/
  | len7 (v : Nat)
  /-- `DEC7`. -/
  | dec7
  /-- `ENC7 <v>`. -/
  | enc7 (v : Nat)
  /-- `IN <b>`: supply byte `b`, the next of the host's stream. -/
  | input (b : Nat)
  /-- `OUT -> <name>`: take the presented byte and call it `<name>`. -/
  | output (name : String)
  /-- `RD`: read `STATUS` and `RESULT`. -/
  | rd
  /-- `RST`: assert reset. -/
  | rst
  /-- `.word <w>`: present the raw command word `w`, for any `OP`. -/
  | word (w : Nat)
  deriving DecidableEq, Repr

/-- The ranges of a line's numbers: `<v>` below `2^W`, `<b>` below 256, a raw word on `W + 2` bits
(spec/30_encoding.md R71, R66). -/
def HostLine.wellFormed : HostLine → Bool
  | .len7 v => decide (v < 2 ^ Config.valueWidth)
  | .dec7 => true
  | .enc7 v => decide (v < 2 ^ Config.valueWidth)
  | .input b => decide (b < 256)
  | .output _ => true
  | .rd => true
  | .rst => true
  | .word w => fitsCommandPort w

end Sys2Proof
end

