-- ==== Sys2Proof/Decode.lean ====
section
/-! DEFINITION. Reading a command word (spec/30_encoding.md R66 to R70), and the encoder written from the same
table. A decoder of command words reads `OP` and nothing else to select the operation (R70). -/

namespace Sys2Proof

/-- `OP`, bits `W+1 : W` of a command word (spec/30_encoding.md R66). -/
def opField (w : CmdWord) : BitVec 2 := w.extractLsb' 64 2

/-- `VALUE`, bits `W-1 : 0` of a command word (spec/30_encoding.md R66), not extended, scaled or shifted (R68). -/
def valueField (w : CmdWord) : Value := w.extractLsb' 0 64

/-- The op code map (spec/30_encoding.md R67) with the reserved `0b11` (R69). Total: every word of the port has a
reading. -/
def decode (w : CmdWord) : Instr :=
  if opField w = 0b00#2 then .len7 (valueField w)
  else if opField w = 0b01#2 then .dec7 (valueField w)
  else if opField w = 0b10#2 then .enc7 (valueField w)
  else .reserved (valueField w)

/-- Why a number is no command word. -/
inductive DecodeError where
  /-- The number does not fit the 66-bit command port, so it cannot be presented (spec/30_encoding.md R66, R68; DEDUCED,
  log entry 7, safe). -/
  | tooWide
  deriving DecidableEq, Repr

/-- Read a number as a command word: its bits 65:0, where it has no others (spec/30_encoding.md R66). -/
def decodeNumber (w : Nat) : Except DecodeError Instr :=
  if fitsCommandPort w then .ok (decode (BitVec.ofNat 66 w)) else .error .tooWide

/-- The command word of an instruction: `{OP, VALUE}` (spec/30_encoding.md R66, R67, R69). -/
def encode (i : Instr) : CmdWord := i.op ++ i.value

/-- The instruction the decoder reads from the bits `w`, numbered as spec/opcode_table.json numbers them; bits from
`nbits` on are 0. None where the number does not fit the port (log entry 7). -/
def decodeTableWord (nbits w : Nat) : Option Instr :=
  match decodeNumber (w % 2 ^ nbits) with
  | .ok i => some i
  | .error _ => none

/-- One row of spec/opcode_table.json: a word belongs to the row when its bits under `mask` are `pattern`. -/
structure OpcodeRow where
  mnemonic : String
  mask : CmdWord
  pattern : CmdWord
  deriving DecidableEq, Repr

/-- The words of a row. -/
def OpcodeRow.accepts (r : OpcodeRow) (w : CmdWord) : Bool := w &&& r.mask == r.pattern

/-- spec/opcode_table.json, its `match` and `mask` columns as they stand (spec/30_encoding.md R67, R69). -/
def opcodeTable : List OpcodeRow :=
  [ ⟨"LEN7", 0x30000000000000000#66, 0x00000000000000000#66⟩,
    ⟨"DEC7", 0x30000000000000000#66, 0x10000000000000000#66⟩,
    ⟨"ENC7", 0x30000000000000000#66, 0x20000000000000000#66⟩,
    ⟨"(reserved)", 0x30000000000000000#66, 0x30000000000000000#66⟩ ]

/-- The table's name of an instruction. -/
def Instr.mnemonic : Instr → String
  | .len7 _ => "LEN7"
  | .dec7 _ => "DEC7"
  | .enc7 _ => "ENC7"
  | .reserved _ => "(reserved)"

end Sys2Proof
end

