-- ==== Sys2Proof/Machine/State.lean ====
section
/-! DEFINITION. The state of the block (spec/10_state.md R20 to R27) and of the host's side of its ports
(spec/20_memory.md R41, R52), as plain data; the reasons a step can stop; the state after reset. -/

namespace Sys2Proof.Machine

/-- `MODE` (spec/10_state.md R21): three values, so that `0b11` is never held. -/
inductive Mode where
  /-- `0b00`: no operation in flight. -/
  | idle
  /-- `0b01`: a `DEC7` is in flight and waits for its next byte. -/
  | dec
  /-- `0b10`: an `ENC7` is in flight and presents its next byte. -/
  | enc
  deriving DecidableEq, Repr

/-- What the host presents to the block's inputs at one moment (spec/60_exceptions.md R135: a clocked realisation may
present more than one). A single interaction of spec/00_scope.md R12 sets one field. -/
structure Presented where
  /-- Reset is asserted. -/
  reset : Bool := false
  /-- A command word is presented (spec/30_encoding.md R66). -/
  command : Option CmdWord := none
  /-- The byte at the front of the host's input stream is offered on the byte-in port: the offered byte is always the next
  of the stream (spec/20_memory.md R54 "one byte, the next of the stream"; DESIGN CHOICE, log entry 11, safe). -/
  supply : Bool := false
  /-- The host is ready to take the byte on the byte-out port. -/
  take : Bool := false
  deriving DecidableEq, Repr

/-- Which of the two read-only words a `Read` step samples (spec/10_state.md R28). -/
inductive ReadSel where
  | status
  | result
  /-- The line `RD` of spec/30_encoding.md R71 samples both. -/
  | both
  deriving DecidableEq, Repr

/-- One interaction of the host (spec/00_scope.md R12). A `Read` is an event of its own: the spec gives it no place
among simultaneous events (DESIGN CHOICE, log entry 6, safe). -/
inductive HostEvent where
  | present (p : Presented)
  | read (sel : ReadSel)
  deriving DecidableEq, Repr

/-- What the host got from a `Read` (spec/20_memory.md R54). -/
inductive Sample where
  | status (word : Byte)
  | result (value : Value)
  deriving DecidableEq, Repr

/-- The block's registers (spec/10_state.md R20) and the host's side: its two byte streams (spec/20_memory.md R41),
what it read, what it will still present, and the counter the free values are applied to. -/
structure State where
  /-- `MODE`, which operation is in flight (R21). -/
  mode : Mode
  /-- `ACC`, `W` bits (R22). -/
  acc : Value
  /-- `SHIFT`, 6 bits (R23). -/
  shift : BitVec 6
  /-- `SIZE`, 3 bits (R24). -/
  size : BitVec 3
  /-- `RESULT`, `W` bits (R25). -/
  result : Value
  /-- `DONE` (R26). -/
  done : Bool
  /-- `CMD_ERR`, sticky (R27). -/
  cmdErr : Bool
  /-- The host's input stream, read from its front (R41, R48). -/
  input : List Byte
  /-- The host's output stream, appended at its end (R41, R48). -/
  output : List Byte
  /-- What the host has read, oldest first. The model's own record of the host's side (log entry 3). -/
  samples : List Sample
  /-- What the host will present, in order (R30: the order of commands is host state; log entry 3). -/
  script : List HostEvent
  /-- How many host events were taken. The MODEL's own field: the free values are applied to it (log entry 2). -/
  tick : Nat
  deriving DecidableEq, Repr

/-- Why the machine stops with a fault. -/
inductive Fault where
  /-- Raised by a `Read` step that samples `RESULT` while `DONE = 0` (spec/70_reset_and_hazards.md R153, 60_exceptions.md
  R140, 93_implementation_defined.md I7). Safe: the hardware returns some value, the model gives none. -/
  | resultUnspecified
  deriving DecidableEq, Repr

/-- Why an instruction has no meaning here. -/
inductive Refusal where
  /-- Raised by an arm of `exec` whose instruction has no meaning yet. No arm raises it in this model. Safe: it stops
  where the hardware goes on. -/
  | notModelled (mnemonic : String)
  deriving DecidableEq, Repr

/-- The machine right after reset (spec/10_state.md R20, 70_reset_and_hazards.md R150): `MODE = IDLE`, `DONE = 0`,
`CMD_ERR = 0`. `ACC`, `SHIFT`, `SIZE` and `RESULT` are unspecified there; 0 is the model's choice (DESIGN CHOICE, log entry
1, unsafe). The host's side is empty: nothing in either stream, nothing read, nothing to present (DESIGN CHOICE, log
entry 3, safe). -/
def State.reset : State where
  mode := .idle
  acc := 0#64
  shift := 0#6
  size := 0#3
  result := 0#64
  done := false
  cmdErr := false
  input := []
  output := []
  samples := []
  script := []
  tick := 0

end Sys2Proof.Machine
end

