-- ==== Sys2Proof/Machine/Operands.lean ====
section
/-! DEFINITION. The fields of an encoded byte (spec/30_encoding.md R60) and the datapath over them, written for any
value width `w` (spec/00_scope.md R5: a model may take `W` as a parameter), and the two ports' access to the host's
streams (spec/20_memory.md R48). -/

namespace Sys2Proof.Machine

/-- `C`, the continuation flag of an encoded byte (spec/30_encoding.md R60). -/
def contFlag (b : Byte) : Bool := (b &&& Config.cont) != 0#8

/-- `G`, the group of an encoded byte, still 8 bits wide (spec/30_encoding.md R60). -/
def group (b : Byte) : Byte := b &&& Config.gmask

/-- `(zext_W(b & 0x7F) << shift) mod 2^W` (spec/41_decode.md R91, R93). -/
def placeGroup {w : Nat} (b : Byte) (shift : Nat) : BitVec w := (group b).setWidth w <<< shift

/-- The accumulator with one more group (spec/41_decode.md R91). -/
def accumulate {w : Nat} (acc : BitVec w) (shift : Nat) (b : Byte) : BitVec w := acc ||| placeGroup b shift

/-- The value bits that remain after a group is sent, `ACC >> 7` (spec/42_encode.md R112). -/
def remaining {w : Nat} (acc : BitVec w) : BitVec w := acc >>> Config.groupBits

/-- `(ACC & 0x7F) | (0x80 if (ACC >> 7) != 0 else 0)` (spec/42_encode.md R111). -/
def presentedByte {w : Nat} (acc : BitVec w) : Byte :=
  (acc.setWidth 8 &&& Config.gmask) ||| (if remaining acc = 0#w then 0#8 else Config.cont)

/-- The shift after one more group, exact (spec/41_decode.md R91: `SHIFT + 7`). In a state no run reaches the sum need
not fit `SHIFT`; the comparison with the cap is then still exact (DESIGN CHOICE, log entry 5, unsafe). -/
def nextShift (s : State) : Nat := s.shift.toNat + Config.groupBits

/-- The size after one more byte, exact (spec/42_encode.md R112: `SIZE + 1`; log entry 5 as for `nextShift`). -/
def nextSize (s : State) : Nat := s.size.toNat + 1

/-- The number of bits of `v` without leading zeros, `bitlen(0) = 0` (spec/00_scope.md R10). -/
def bitlen (v : Nat) : Nat := if v = 0 then 0 else Nat.log2 v + 1

/-- A byte leaves the front of the host's input stream; `rest` is what stays (spec/20_memory.md R48). -/
def keepInput (rest : List Byte) (s : State) : State := { s with input := rest }

/-- `InByte()` (spec/00_scope.md R11): the byte at the front of the host's stream, and the state with it removed
(spec/20_memory.md R48). None where the stream is empty: the host never supplies a byte it lacks (R55). -/
def inByte (s : State) : Option (Byte × State) :=
  match s.input with
  | [] => none
  | b :: rest => some (b, keepInput rest s)

/-- `OutByte(b)` (spec/00_scope.md R11): the host appends the byte to its output stream (spec/20_memory.md R48). -/
def outByteTo (b : Byte) (s : State) : State := { s with output := s.output ++ [b] }

end Sys2Proof.Machine
end

