-- ==== Sys2Proof/Machine/Flags.lean ====
section
/-! DEFINITION. What the host sees of the state: `STATUS` (spec/10_state.md R28), the port outputs (R29), and the two
loop conditions (spec/41_decode.md R92, 42_encode.md R113). The block has no flags but `DONE` and `CMD_ERR` (R31). -/

namespace Sys2Proof.Machine

/-- The encoding of `MODE` (spec/10_state.md R21). -/
def modeBits : Mode → BitVec 2
  | .idle => 0b00#2
  | .dec => 0b01#2
  | .enc => 0b10#2

/-- `STATUS` (spec/10_state.md R28): bits 7:4 read 0, bit 3 `CMD_ERR`, bit 2 `DONE`, bits 1:0 `MODE`. -/
def statusWord (s : State) : Byte :=
  0#4 ++ BitVec.ofBool s.cmdErr ++ BitVec.ofBool s.done ++ modeBits s.mode

/-- `IN_READY = (MODE == DEC)` (spec/10_state.md R29). -/
def inReady (s : State) : Bool := s.mode == .dec

/-- `OUT_VALID = (MODE == ENC)` (spec/10_state.md R29). -/
def outValid (s : State) : Bool := s.mode == .enc

/-- `OUT_BYTE` (spec/10_state.md R29, 42_encode.md R111): the presented byte while `OUT_VALID`, a free value otherwise
(93_implementation_defined.md I9; log entry 2). -/
def outByte (s : State) : Byte :=
  if outValid s then presentedByte s.acc else Config.freeOutByte s.tick

/-- A decode goes on after a byte: its flag is set and the new shift is at most 35 (spec/41_decode.md R91, R92). -/
def decodeContinues (b : Byte) (shift' : Nat) : Bool := contFlag b && decide (shift' ≤ Config.decShiftCap)

/-- An encode goes on after a byte: value bits remain and the new size is at most 5 (spec/42_encode.md R112, R113). -/
def encodeContinues (rem : Value) (size' : Nat) : Bool := rem != 0#64 && decide (size' ≤ Config.encSizeCap)

end Sys2Proof.Machine
end

