-- ==== Sys2Proof/Machine/Ops.lean ====
section
/-! DEFINITION. The named operations over the registers, shared by the meanings. The block has no memory
(spec/20_memory.md R40), so there is no memory operation. -/

namespace Sys2Proof.Machine

/-- A command completes: `RESULT <- v`, `DONE <- 1`, `MODE <- IDLE` (spec/40_length.md R80, 41_decode.md R91,
42_encode.md R112). `RESULT` is written nowhere else but by reset (10_state.md R25). -/
def complete (v : Value) (s : State) : State :=
  { s with result := v, done := true, mode := .idle }

/-- `DEC7` is accepted (spec/41_decode.md R90). An operation in flight is abandoned (70_reset_and_hazards.md R154). -/
def beginDecode (s : State) : State :=
  { s with acc := 0#64, shift := 0#6, done := false, mode := .dec }

/-- `ENC7 v` is accepted (spec/42_encode.md R110). An operation in flight is abandoned (70_reset_and_hazards.md R154). -/
def beginEncode (v : Value) (s : State) : State :=
  { s with acc := v, size := 0#3, done := false, mode := .enc }

/-- TAKING THE ONE EXCEPTION, `CmdError` (spec/60_exceptions.md R131): `CMD_ERR <- 1`, nothing else. Nothing is saved and
control goes nowhere (R136), so there is no return beside it; only reset clears the bit. The run is faulted from here on
(`Faulted`, Safety.lean; DESIGN CHOICE, log entry 4, unsafe). -/
def raiseCmdError (s : State) : State := { s with cmdErr := true }

/-- One group arrives (spec/41_decode.md R91): `ACC` and `SHIFT`, whatever follows. -/
def receiveGroup (b : Byte) (s : State) : State :=
  { s with acc := accumulate s.acc s.shift.toNat b, shift := BitVec.ofNat 6 (nextShift s) }

/-- One group has left (spec/42_encode.md R112): `ACC` and `SIZE`, whatever follows. -/
def sendGroup (s : State) : State :=
  { s with acc := remaining s.acc, size := BitVec.ofNat 3 (nextSize s) }

/-- A `Reset` step (spec/70_reset_and_hazards.md R150): `MODE`, `DONE`, `CMD_ERR` as given, the unspecified registers at
free values (log entry 2). It undoes no transfer, so the host's streams stand (R151). -/
def takeReset (s : State) : State :=
  { s with
    mode := .idle, done := false, cmdErr := false,
    acc := Config.freeAcc s.tick, shift := Config.freeShift s.tick,
    size := Config.freeSize s.tick, result := Config.freeResult s.tick }

/-- The host's next event is taken off its script. -/
def takeEvent (rest : List HostEvent) (s : State) : State :=
  { s with script := rest, tick := s.tick + 1 }

/-- The host notes what it read (spec/20_memory.md R54). No register changes (10_state.md R28). -/
def noteSamples (xs : List Sample) (s : State) : State := { s with samples := s.samples ++ xs }

end Sys2Proof.Machine
end

