-- ==== Sys2Proof/Machine/Dec7.lean ====
section
/-! DEFINITION. `DEC7`, the decoder, and its byte-in step (spec/41_decode.md). -/

namespace Sys2Proof.Machine

/-- `Command(DEC7, _)` (spec/41_decode.md R90): accepted in any `MODE`; `VALUE` is ignored (30_encoding.md R68). -/
def execDec7 (_value : Value) (s : State) : Host.Outcome State Fault Refusal :=
  .next (beginDecode s)

/-- The state after byte `b` has arrived at a decode (spec/41_decode.md R91, R92). -/
def receiveByte (b : Byte) (s : State) : State :=
  let t := receiveGroup b s
  if decodeContinues b (nextShift s) then t else complete t.acc t

/-- The step `ByteIn` (spec/41_decode.md R91), enabled by `IN_READY` in `transfer`. With an empty stream no step occurs:
the block waits (R96). -/
def execByteIn (s : State) : Host.Outcome State Fault Refusal :=
  match inByte s with
  | none => .next s
  | some (b, s') => .next (receiveByte b s')

end Sys2Proof.Machine
end

