-- ==== Sys2Proof/Machine/Enc7.lean ====
section
/-! DEFINITION. `ENC7`, the encoder, and its byte-out step (spec/42_encode.md), by the corrected algorithm
(R118, 90_conflicts.md C1). -/

namespace Sys2Proof.Machine

/-- `Command(ENC7, v)` (spec/42_encode.md R110): accepted in any `MODE`; no byte is emitted. -/
def execEnc7 (value : Value) (s : State) : Host.Outcome State Fault Refusal :=
  .next (beginEncode value s)

/-- The state after the host has taken the presented byte (spec/42_encode.md R112, R113). -/
def sendByte (s : State) : State :=
  let t := sendGroup (outByteTo (presentedByte s.acc) s)
  if encodeContinues t.acc (nextSize s) then t else complete (BitVec.ofNat 64 (nextSize s)) t

/-- The step `ByteOut` (spec/42_encode.md R112), enabled by `OUT_VALID` in `transfer`. -/
def execByteOut (s : State) : Host.Outcome State Fault Refusal :=
  .next (sendByte s)

end Sys2Proof.Machine
end

