-- ==== Sys2Proof/Machine/Len7.lean ====
section
/-! DEFINITION. `LEN7`, the length calculator (spec/40_length.md). -/

namespace Sys2Proof.Machine

/-- The loop of spec/40_length.md R81 on a value of any width, with a bound on its iterations (`fuel`): shift right by 7
and count, until nothing remains. -/
def len7Loop {w : Nat} : Nat → BitVec w → Nat
  | 0, _ => 0
  | fuel + 1, v => if remaining v = 0#w then 1 else len7Loop fuel (remaining v) + 1

/-- `len7(v)` (spec/40_length.md R81). A `w`-bit value is zero after at most `w` shifts by 7, so `w + 1` iterations never
run out. -/
def len7 {w : Nat} (v : BitVec w) : Nat := len7Loop (w + 1) v

/-- `Command(LEN7, v)` (spec/40_length.md R80): accepted in any `MODE`. -/
def execLen7 (value : Value) (s : State) : Host.Outcome State Fault Refusal :=
  .next (complete (BitVec.ofNat 64 (len7 value)) s)

end Sys2Proof.Machine
end

