-- ==== Sys2Proof/Machine/Reserved.lean ====
section
/-! DEFINITION. The reserved command word `OP = 0b11` (spec/30_encoding.md R69, 60_exceptions.md R131). -/

namespace Sys2Proof.Machine

/-- `Command(0b11, _)` (spec/60_exceptions.md R131): takes `CmdError`. `VALUE` is not kept. -/
def execReserved (_value : Value) (s : State) : Host.Outcome State Fault Refusal :=
  .next (raiseCmdError s)

end Sys2Proof.Machine
end

