-- ==== Sys2Proof/Machine/Dispatch.lean ====
section
/-! DEFINITION. One arm per command word (spec/30_encoding.md R67, R69). -/

namespace Sys2Proof.Machine

def exec (i : Instr) (s : State) : Host.Outcome State Fault Refusal :=
  match i with
  | .len7 value => Sys2Proof.Machine.execLen7 value s
  | .dec7 value => Sys2Proof.Machine.execDec7 value s
  | .enc7 value => Sys2Proof.Machine.execEnc7 value s
  | .reserved value => Sys2Proof.Machine.execReserved value s

end Sys2Proof.Machine
end

