-- ==== Sys2Proof/Machine/Ports.lean ====
section
/-! DEFINITION. The host's side of one step: which of the events it presents is taken (spec/60_exceptions.md R135), the
byte transfers (spec/20_memory.md R42, R43, R54) and the `Read` step (spec/10_state.md R28). -/

namespace Sys2Proof.Machine

/-- A byte transfer (spec/20_memory.md R54): a supplied byte is taken in `DEC` only, a take is served in `ENC` only, and
nothing happens otherwise: the byte stays at the front of the stream, the take receives nothing. The attempt is then over
(DESIGN CHOICE, log entry 10, safe). -/
def transfer (supply take : Bool) (s : State) : Host.Outcome State Fault Refusal :=
  match s.mode with
  | .idle => .next s
  | .dec => if supply then execByteIn s else .next s
  | .enc => if take then execByteOut s else .next s

/-- What is taken of the events presented together: reset, then a command, then a byte transfer; the others do not
happen (spec/60_exceptions.md R135). That a byte offered together with a reset stays in the host's stream is read from
R54 (DEDUCED, log entry 8, unsafe). -/
def takePresented (p : Presented) (s : State) : Host.Outcome State Fault Refusal :=
  if p.reset then .next (takeReset s)
  else
    match p.command with
    | some w => exec (decode w) s
    | none => transfer p.supply p.take s

/-- A host read of `RESULT`: a fault while `DONE = 0` (spec/70_reset_and_hazards.md R153, 10_state.md R25). -/
def readResult (s : State) : Except Fault Value :=
  if s.done then .ok s.result else .error .resultUnspecified

/-- The words a `Read` step gives the host (spec/10_state.md R28; both for the line `RD`, 30_encoding.md R71). -/
def readWords (sel : ReadSel) (s : State) : Except Fault (List Sample) :=
  match sel with
  | .status => .ok [.status (statusWord s)]
  | .result => (readResult s).map fun v => [.result v]
  | .both => (readResult s).map fun v => [.status (statusWord s), .result v]

/-- The step `Read` (spec/00_scope.md R12): the host notes what it sampled; nothing else changes. -/
def execRead (sel : ReadSel) (s : State) : Host.Outcome State Fault Refusal :=
  match readWords sel s with
  | .ok xs => .next (noteSamples xs s)
  | .error f => .fault f

/-- One interaction of the host (spec/00_scope.md R12). -/
def takeHostEvent (e : HostEvent) (s : State) : Host.Outcome State Fault Refusal :=
  match e with
  | .present p => takePresented p s
  | .read sel => execRead sel s

/-- The next step of the block: the host's next event, taken off its script first. With nothing presented the block is
held as it is (spec/20_memory.md R53, R55: a run that goes on without reaching `IDLE`; DEDUCED, log entry 9, safe). -/
def hostStep (s : State) : Host.Outcome State Fault Refusal :=
  match s.script with
  | [] => .next s
  | e :: rest => takeHostEvent e (takeEvent rest s)

/-- The event of a host that presents one command word. -/
def commandEvent (w : CmdWord) : HostEvent := .present { command := some w }

/-- The event of a host that offers its next byte. -/
def supplyEvent : HostEvent := .present { supply := true }

/-- The event of a host that takes the presented byte. -/
def takeByteEvent : HostEvent := .present { take := true }

/-- The event of a host that asserts reset. -/
def resetEvent : HostEvent := .present { reset := true }

/-- The command the table word `w` of `nbits` bits stands for, put in front of the host's script, so that the very next
step presents it. A number that does not fit the port cannot be presented (spec/30_encoding.md R68): nothing is put (log
entry 7). -/
def placeCommand (s : State) (nbits w : Nat) : State :=
  if fitsCommandPort (w % 2 ^ nbits) then
    { s with script := commandEvent (BitVec.ofNat 66 (w % 2 ^ nbits)) :: s.script }
  else s

end Sys2Proof.Machine
end

