-- ==== Sys2Proof/Machine/Step.lean ====
section
/-! DEFINITION. One step of the machine (spec/00_scope.md R12), and how a command word comes to be the next one. -/

namespace Sys2Proof.Machine

/-- One step: the host's next interaction (spec/00_scope.md R12). The block fetches nothing (10_state.md R30). -/
def step (s : State) : Host.Outcome State Fault Refusal := hostStep s

/-- `s` with the table word `w` as the command the host presents next (log entry 3). -/
def State.withFetchWord (s : State) (nbits w : Nat) : State := placeCommand s nbits w

end Sys2Proof.Machine
end

