-- ==== Sys2Proof/Machine/Blocks.lean ====
section
/-! DEFINITION. Several blocks in one system (spec/00_scope.md R8, 60_exceptions.md R139): each is an agent of its own,
and they share no state. -/

namespace Sys2Proof.Machine

/-- Block `i` of a system takes a step of its own; no other block moves (spec/00_scope.md R8). A stop of that
block stops the system, and a number that names no block leaves it as it is (DESIGN CHOICE, log entry 12, safe). -/
def stepBlock (i : Nat) (blocks : List State) : Host.Outcome (List State) Fault Refusal :=
  match blocks[i]? with
  | none => .next blocks
  | some s =>
    match step s with
    | .next t => .next (blocks.set i t)
    | .fault f => .fault f
    | .refused r => .refused r

end Sys2Proof.Machine
end

