-- ==== Sys2Proof/Machine/LineText.lean ====
section
/-! DEFINITION. The written form of a host-program line (spec/30_encoding.md R71, numbers as in 00_scope.md R9). What R71
leaves open of the spelling is the model's choice (DESIGN CHOICE, log entry 13, safe). -/

namespace Sys2Proof.Machine

/-- A line without its comment: `;` starts one (spec/30_encoding.md R71). -/
def withoutComment : List Char → List Char
  | [] => []
  | c :: cs => if c = ';' then [] else c :: withoutComment cs

/-- The pieces of a line between spaces, empty ones among them. -/
def splitAtSpaces : List Char → List (List Char)
  | [] => [[]]
  | c :: cs =>
    match splitAtSpaces cs with
    | [] => [[]]
    | w :: ws => if c = ' ' then [] :: w :: ws else (c :: w) :: ws

/-- The words of a line (log entry 13: spaces part them). -/
def lineWords (line : List Char) : List (List Char) :=
  (splitAtSpaces (withoutComment line)).filter fun w => !w.isEmpty

/-- The value of a digit, of either case. -/
def digitValue (c : Char) : Option Nat :=
  if '0' ≤ c ∧ c ≤ '9' then some (c.toNat - '0'.toNat)
  else if 'a' ≤ c ∧ c ≤ 'f' then some (c.toNat - 'a'.toNat + 10)
  else if 'A' ≤ c ∧ c ≤ 'F' then some (c.toNat - 'A'.toNat + 10)
  else none

/-- The digits of a number in a base, read on from `acc`; `_` only groups digits (spec/00_scope.md R9). -/
def digitsValue (base : Nat) : Nat → List Char → Option Nat
  | acc, [] => some acc
  | acc, c :: cs =>
    if c = '_' then digitsValue base acc cs
    else
      match digitValue c with
      | some d => if d < base then digitsValue base (acc * base + d) cs else none
      | none => none

/-- The value of a literal's digits: at least one, and no `_` before the first, since `_` stands inside a literal
(spec/00_scope.md R9). -/
def literalValue (base : Nat) : List Char → Option Nat
  | [] => none
  | c :: cs => if c = '_' then none else digitsValue base 0 (c :: cs)

/-- A decimal or `0x`-prefixed number, which is what spec/30_encoding.md R71 gives for `<v>`. It states no base for `<b>` and
`<w>`: the model reads them the same way, and the `0b` prefix of 00_scope.md R9 on no line (DESIGN CHOICE, log entry 13,
safe). -/
def numberValue : List Char → Option Nat
  | '0' :: 'x' :: ds => literalValue 16 ds
  | ds => literalValue 10 ds

/-- The line that a list of words spells (spec/30_encoding.md R71). Whether its numbers fit is `HostLine.wellFormed`'s to
say. -/
def lineOfWords : List (List Char) → Option HostLine
  | [['L', 'E', 'N', '7'], v] => (numberValue v).map .len7
  | [['D', 'E', 'C', '7']] => some .dec7
  | [['E', 'N', 'C', '7'], v] => (numberValue v).map .enc7
  | [['I', 'N'], b] => (numberValue b).map .input
  | [['O', 'U', 'T'], ['-', '>'], name] => some (.output (String.ofList name))
  | [['R', 'D']] => some .rd
  | [['R', 'S', 'T']] => some .rst
  | [['.', 'w', 'o', 'r', 'd'], w] => (numberValue w).map .word
  | _ => none

/-- The lines of a program's text, one interaction per line (spec/30_encoding.md R71); a line of spaces and comment only
is no line (log entry 13). None where a line spells nothing. -/
def readLines : List (List Char) → Option (List HostLine)
  | [] => some []
  | text :: rest =>
    match lineWords text with
    | [] => readLines rest
    | w :: ws =>
      match lineOfWords (w :: ws) with
      | some line => (readLines rest).map (line :: ·)
      | none => none

end Sys2Proof.Machine
end

