-- ==== Sys2Proof/Machine/Program.lean ====
section
/-! DEFINITION. Host programs, one interaction per line (spec/30_encoding.md R71), as the events the host presents. A
program is the host's: it stands in the host's script, never in the block (10_state.md R30). -/

namespace Sys2Proof.Machine

/-- `{OP, VALUE}` from the numbers of a line (spec/30_encoding.md R66, R71). -/
def lineWord (op : BitVec 2) (v : Nat) : CmdWord := op ++ BitVec.ofNat 64 v

/-- The interaction of one line (spec/30_encoding.md R71), numbers taken modulo their fields' widths; `assemble` admits
only lines whose numbers fit. -/
def lineEvent : HostLine → HostEvent
  | .len7 v => commandEvent (lineWord 0b00#2 v)
  | .dec7 => commandEvent (lineWord 0b01#2 0)
  | .enc7 v => commandEvent (lineWord 0b10#2 v)
  | .input _ => supplyEvent
  | .output _ => takeByteEvent
  | .rd => .read .both
  | .rst => resetEvent
  | .word w => commandEvent (BitVec.ofNat 66 w)

/-- The byte a line puts into the host's input stream: that of `IN <b>` (spec/30_encoding.md R71). -/
def lineInput : HostLine → List Byte
  | .input b => [BitVec.ofNat 8 b]
  | .len7 _ => []
  | .dec7 => []
  | .enc7 _ => []
  | .output _ => []
  | .rd => []
  | .rst => []
  | .word _ => []

/-- The events of a program; none where a line's number does not fit its field (spec/30_encoding.md R71). -/
def assemble (lines : List HostLine) : Option (List HostEvent) :=
  if lines.all HostLine.wellFormed then some (lines.map lineEvent) else none

/-- A program placed on the host's side (log entries 3 and 11): its lines to present, the bytes of its `IN` lines in the
input stream, and what follows them there (`left`, spec/41_decode.md R94: bytes a program does not consume stay in the stream). -/
def loadProgram (lines : List HostLine) (left : List Byte) (s : State) : Option State :=
  (assemble lines).map fun events =>
    { s with script := events, input := lines.flatMap lineInput ++ left }

/-- The text of a program placed on the host's side (spec/30_encoding.md R71). -/
def loadText (text : List (List Char)) (left : List Byte) (s : State) : Option State :=
  (readLines text).bind fun lines => loadProgram lines left s

end Sys2Proof.Machine
end

