-- ==== Sys2Proof/Safety.lean ====
section
/-! DEFINITION. What counts as a good run (spec/70_reset_and_hazards.md R160, 60_exceptions.md R131), the register
invariant (spec/10_state.md R22 to R24), and the wire format as a specification independent of the machine
(spec/30_encoding.md R61 to R64), in the terms claims use. -/

namespace Sys2Proof

open Sys2Proof.Machine

/-- A run that has presented the reserved word since reset is faulted (spec/60_exceptions.md R131, 70_reset_and_hazards.md
R160). -/
abbrev Faulted (s : State) : Prop := s.cmdErr = true

/-- An operation is in flight, so a run is not over (spec/70_reset_and_hazards.md R160). -/
abbrev Pending (s : State) : Prop := s.mode ≠ .idle

/-- A run ends well (spec/70_reset_and_hazards.md R160): `MODE = IDLE`, `CMD_ERR = 0`, nothing more to present. -/
abbrev EndsWell (s : State) : Prop := s.mode = .idle ∧ s.cmdErr = false ∧ s.script = []

/-- What the registers hold while an operation is in flight: in `DEC`, `SHIFT` is one of 0, 7, 14, 21, 28, 35 and `ACC`
holds groups below it (spec/10_state.md R22, R23); in `ENC`, `SIZE` is 0 to 5, and bits remain once a byte has left
(R24, 42_encode.md R112); `DONE` only while `IDLE` (R26). -/
abbrev RegistersSound (s : State) : Prop :=
  (s.mode = .dec → s.shift.toNat % 7 = 0 ∧ s.shift.toNat ≤ 35 ∧ s.acc.toNat < 2 ^ s.shift.toNat) ∧
  (s.mode = .enc → s.size.toNat ≤ 5 ∧ s.acc.toNat < 2 ^ (64 - 7 * s.size.toNat) ∧
    (s.size.toNat ≠ 0 → s.acc.toNat ≠ 0)) ∧
  (s.done = true → s.mode = .idle)

/-- The bytes one decode consumes of a stream, given how many it may still read: up to the first clear flag, or the cap
(spec/30_encoding.md R63, 41_decode.md R98). -/
def integerBytes : Nat → List Byte → List Byte
  | 0, _ => []
  | _ + 1, [] => []
  | k + 1, b :: bs => if b.toNat < 128 then [b] else b :: integerBytes k bs

/-- The stream holds a whole integer: a clear flag within the cap, or as many bytes as the cap (spec/30_encoding.md
R63). -/
def holdsInteger : Nat → List Byte → Bool
  | 0, _ => true
  | _ + 1, [] => false
  | k + 1, b :: bs => decide (b.toNat < 128) || holdsInteger k bs

/-- `sum over i of (b[i] & 0x7F) << (7*(k+i))` (spec/30_encoding.md R61). -/
def wireSum : Nat → List Byte → Nat
  | _, [] => 0
  | k, b :: bs => (b.toNat % 128) * 2 ^ (7 * k) + wireSum (k + 1) bs

/-- The loop of the decoder over bytes already at hand, on any width `w` (spec/41_decode.md R91, R93). -/
def accumulateAll {w : Nat} : Nat → BitVec w → List Byte → BitVec w
  | _, acc, [] => acc
  | shift, acc, b :: bs => accumulateAll (shift + 7) (accumulate acc shift b) bs

/-- How many bytes `ENC7 v` emits: `min(len7(v), 6)` (spec/42_encode.md R113). -/
def encodedLength (v : Value) : Nat := min (len7 v) 6

/-- Byte `k` of the encoding of `v`: its group, flagged exactly when value bits remain above it (spec/30_encoding.md R62,
R64, 42_encode.md R115). -/
def encodedByte (v : Nat) (k : Nat) : Byte :=
  BitVec.ofNat 8 (v / 2 ^ (7 * k) % 128 + if v / 2 ^ (7 * (k + 1)) = 0 then 0 else 128)

/-- The bytes `ENC7 v` emits, in order (spec/42_encode.md R114, R115). -/
def encoding (v : Value) : List Byte := (List.range (encodedLength v)).map (encodedByte v.toNat)

/-- The host's next event asserts reset. -/
def resetPresented (s : State) : Bool :=
  match s.script with
  | .present p :: _ => p.reset
  | .read _ :: _ => false
  | [] => false

/-- The command word that the next step takes, if any: the host's next event presents it and no reset with it
(spec/60_exceptions.md R135). -/
def commandTaken (s : State) : Option CmdWord :=
  match s.script with
  | .present p :: _ => if p.reset then none else p.command
  | .read _ :: _ => none
  | [] => none

/-- The next step takes a reserved command word (spec/60_exceptions.md R131). -/
def reservedTaken (s : State) : Bool :=
  match commandTaken s with
  | some w => opField w == 0b11#2
  | none => false

/-- The next step is a `ByteIn`: a byte is offered, `MODE = DEC`, the host has it, and neither reset nor a command is
presented with it (spec/41_decode.md R91, 60_exceptions.md R135). -/
def byteInTaken (s : State) : Bool :=
  match s.script with
  | .present p :: _ => !p.reset && p.command.isNone && p.supply && s.mode == .dec && !s.input.isEmpty
  | .read _ :: _ => false
  | [] => false

/-- The next step is a `ByteOut`: the host takes, `MODE = ENC`, and neither reset nor a command is presented with it
(spec/42_encode.md R112, 60_exceptions.md R135). -/
def byteOutTaken (s : State) : Bool :=
  match s.script with
  | .present p :: _ => !p.reset && p.command.isNone && p.take && s.mode == .enc
  | .read _ :: _ => false
  | [] => false

/-- Two states the host cannot tell apart: all it sees is equal, and so are the registers the block still reads: `ACC` and
`SHIFT` in `DEC`, `ACC` and `SIZE` in `ENC`, `RESULT` while `DONE` (spec/10_state.md R22 to R25, R32). -/
abbrev SameView (s t : State) : Prop :=
  (s.mode = t.mode ∧ s.done = t.done ∧ s.cmdErr = t.cmdErr) ∧
  (s.input = t.input ∧ s.output = t.output ∧ s.samples = t.samples ∧ s.script = t.script ∧ s.tick = t.tick) ∧
  (s.mode = .dec → s.acc = t.acc ∧ s.shift = t.shift) ∧
  (s.mode = .enc → s.acc = t.acc ∧ s.size = t.size) ∧
  (s.done = true → s.result = t.result)

/-- No event of the host's script asserts reset. -/
def noReset : List HostEvent → Bool
  | [] => true
  | .present p :: rest => !p.reset && noReset rest
  | .read _ :: rest => noReset rest

/-- The script of a host that issues `ENC7 v` and then takes `n` times (spec/30_encoding.md R71). -/
def encodeScript (v : Value) (n : Nat) (tail : List HostEvent) : List HostEvent :=
  commandEvent (encode (.enc7 v)) :: (List.replicate n takeByteEvent ++ tail)

/-- The script of a host that issues `DEC7` (with any `VALUE`) and then supplies `n` times (spec/30_encoding.md R71). -/
def decodeScript (v : Value) (n : Nat) (tail : List HostEvent) : List HostEvent :=
  commandEvent (encode (.dec7 v)) :: (List.replicate n supplyEvent ++ tail)

end Sys2Proof
end

