-- ==== Sys2Proof/Certificates/Slice0/Obligations.lean ====
section
/-! DEFINITION. The statements for the provers. Each is about the block or its ports, for every state and every operand;
none is about a program. Its docstring names the rule of spec/ it formalises. -/

open Sys2Proof Sys2Proof.Machine

/-! ### The command word -/

/-- Four words written out from spec/30_encoding.md R66 and R71: `LEN7 7`, `DEC7`, `ENC7 300` and the reserved word. -/
def Obligations.WrittenOutWordsDecode : Prop :=
  decode 0x00000000000000007#66 = .len7 7#64 ∧ decode 0x10000000000000000#66 = .dec7 0#64 ∧
  decode 0x2000000000000012C#66 = .enc7 300#64 ∧ decode 0x3FFFFFFFFFFFFFFFF#66 = .reserved 0xFFFFFFFFFFFFFFFF#64

/-- R67: the op code map. `OP`, above `VALUE` in the word, alone selects the operation, and `VALUE` is taken as it stands. -/
def Obligations.OpSelectsTheCommand : Prop :=
  ∀ v : Value, decode (0b00#2 ++ v) = .len7 v ∧ decode (0b01#2 ++ v) = .dec7 v ∧ decode (0b10#2 ++ v) = .enc7 v ∧
    decode (0b11#2 ++ v) = .reserved v

/-- Every well-formed instruction, with every value of its `VALUE` field, is read back from its word. -/
def Obligations.DecodeInvertsEncode : Prop :=
  ∀ i : Instr, i.wellFormed = true → decode (encode i) = i

/-- Each command word has one meaning: the word of the instruction it decodes to is the word itself. -/
def Obligations.EncodeInvertsDecode : Prop :=
  ∀ w : CmdWord, encode (decode w) = w ∧ (decode w).wellFormed = true

/-- The rows of spec/opcode_table.json partition the command words: exactly one accepts a word, and it bears the name of
the decoded instruction (R67, R69, R73). -/
def Obligations.OpcodeRowsPartitionWords : Prop :=
  ∀ w : CmdWord, ∃ row ∈ opcodeTable, row.accepts w = true ∧ row.mnemonic = (decode w).mnemonic ∧
    ∀ other ∈ opcodeTable, other.accepts w = true → other = row

/-! ### The step -/

/-- A STEP RUNS THE DECODED INSTRUCTION. A presented command word is decoded, its instruction is well formed, and the step
is its meaning on the state with the host's event taken off, whatever byte transfer is presented with it (R12, R135). -/
def Obligations.StepRunsDecodedCommand : Prop :=
  ∀ (s : State) (p : Presented) (w : CmdWord) (rest : List HostEvent),
    s.script = .present p :: rest → p.reset = false → p.command = some w →
    (decode w).wellFormed = true ∧ step s = exec (decode w) (takeEvent rest s)

/-- A table word placed as the host's next command is decoded and run by the very next step. -/
def Obligations.PlacedTableWordRunsNext : Prop :=
  ∀ (s : State) (nbits w : Nat) (i : Instr), decodeTableWord nbits w = some i →
    step (s.withFetchWord nbits w) = exec i (takeEvent s.script s)

/-- R53, R55, R96: with nothing presented the block is held as it is, for any number of steps. (That a held block is a run that
goes on without change is the model's reading, log entry 9.) -/
def Obligations.BlockWaitsForHost : Prop :=
  ∀ s : State, s.script = [] → ∀ k : Nat, Host.Core.run core k s = .next s

/-- R135: of the events presented together the step takes reset, else the command, else the byte transfer its `MODE`
enables, as if nothing else had been presented. A reset or a command moves no byte of either stream. (R135 says so of a
command; that a byte offered together with a reset, which R135 has the reset discard, stays in the host's stream is the model's
reading, log entry 8, DEDUCED; that a reserved word answers a next state is log entry 4, DESIGN CHOICE.) -/
def Obligations.SimultaneousEventsTakenInOrder : Prop :=
  ∀ (s : State) (p : Presented) (rest : List HostEvent), s.script = .present p :: rest →
    (p.reset = true → step s = step { s with script := resetEvent :: rest }) ∧
    (∀ w, p.reset = false → p.command = some w → step s = step { s with script := commandEvent w :: rest }) ∧
    (p.reset = true ∨ p.command.isSome = true → ∃ t, step s = .next t ∧ t.input = s.input ∧ t.output = s.output) ∧
    (p.reset = false → p.command = none → s.mode = .dec → p.supply = true →
      step s = step { s with script := supplyEvent :: rest }) ∧
    (p.reset = false → p.command = none → s.mode = .enc → p.take = true →
      step s = step { s with script := takeByteEvent :: rest })

/-- The only stop of a step is a host read of `RESULT` while `DONE = 0` (R153, R140); no transfer, no reset and none of the
three commands faults (R130, R132, R133), and nothing is refused. That the reserved word, which R131 and R140 class as a fault,
does not stop the step is the model's choice (log entry 4, DESIGN CHOICE); that a held block is no stop is its reading (log
entry 9, DEDUCED). -/
def Obligations.OnlyEarlyResultReadFaults : Prop :=
  ∀ s : State, (∀ f, step s = .fault f ↔
      f = .resultUnspecified ∧ s.done = false ∧ ∃ sel rest, s.script = .read sel :: rest ∧ sel ≠ .status) ∧
    ∀ r, step s ≠ .refused r

/-! ### Reset -/

/-- R20, R150: what reset leaves where the spec gives a value: `MODE = IDLE`, `DONE = 0`, `CMD_ERR = 0`, and with them
`STATUS = 0x00`, `IN_READY = 0`, `OUT_VALID = 0`. Nothing is said of the four registers whose reset value is the model's choice. -/
def Obligations.ResetStateValues : Prop :=
  State.reset.mode = .idle ∧ State.reset.done = false ∧ State.reset.cmdErr = false ∧
  statusWord State.reset = 0x00#8 ∧ inReady State.reset = false ∧ outValid State.reset = false

/-- R151, R150: a `Reset` step in any state, whatever is presented with it: `MODE`, `DONE`, `CMD_ERR`, `STATUS` and the port
outputs as R150 says, and a read of `RESULT` then faults; it undoes no transfer and moves no byte. `ACC`, `SHIFT`, `SIZE` and
`RESULT` are left open. (That a byte offered together with the reset is not moved is read from R54, log entry 8.) -/
def Obligations.ResetStepFromAnyState : Prop :=
  ∀ s : State, resetPresented s = true → ∃ t, step s = .next t ∧
    t.mode = .idle ∧ t.done = false ∧ t.cmdErr = false ∧
    statusWord t = 0x00#8 ∧ inReady t = false ∧ outValid t = false ∧ readResult t = .error .resultUnspecified ∧
    t.input = s.input ∧ t.output = s.output ∧ t.samples = s.samples ∧ t.script = s.script.tail

/-! ### LEN7 -/

/-- R80: `LEN7 v` in any state writes `RESULT`, `DONE` and `MODE`, and nothing else: no other register, no byte of either
stream. Its corner cases and worked example. -/
def Obligations.Len7WritesLength : Prop :=
  (∀ (v : Value) (s : State), exec (.len7 v) s =
    .next { s with result := BitVec.ofNat 64 (len7 v), done := true, mode := .idle }) ∧
  len7 0#64 = 1 ∧ len7 0xFFFFFFFFFFFFFFFF#64 = 10 ∧ len7 300#64 = 2

/-- R81: the loop of `len7` and its closed form, on values of any width. -/
def Obligations.LengthClosedForm : Prop :=
  ∀ (w : Nat) (v : BitVec w),
    len7 v = (if v >>> 7 = 0#w then 1 else len7 (v >>> 7) + 1) ∧
    (v.toNat < 2 ^ 7 → len7 v = 1) ∧
    (2 ^ 7 ≤ v.toNat → len7 v = (bitlen v.toNat + 6) / 7) ∧
    ∀ k, 2 ≤ k → (len7 v = k ↔ 2 ^ (7 * (k - 1)) ≤ v.toNat ∧ v.toNat < 2 ^ (7 * k))

/-- R82: the breakpoints of `len7` for `W = 64`, the table's ten rows. -/
def Obligations.LengthBreakpoints : Prop :=
  ∀ row ∈ [(0, 2 ^ 7 - 1, 1), (2 ^ 7, 2 ^ 14 - 1, 2), (2 ^ 14, 2 ^ 21 - 1, 3), (2 ^ 21, 2 ^ 28 - 1, 4),
      (2 ^ 28, 2 ^ 35 - 1, 5), (2 ^ 35, 2 ^ 42 - 1, 6), (2 ^ 42, 2 ^ 49 - 1, 7), (2 ^ 49, 2 ^ 56 - 1, 8),
      (2 ^ 56, 2 ^ 63 - 1, 9), (2 ^ 63, 2 ^ 64 - 1, 10)],
    ∀ v : Value, row.1 ≤ v.toNat → v.toNat ≤ row.2.1 → len7 v = row.2.2

/-- R83: `LEN7` counts the bytes `ENC7` emits below 2^42; at or above it `ENC7` emits 6 and `LEN7` counts 7 or more; over all
values `ENC7` reports `min(len7(v), 6)`. Both counts are those the two commands leave in `RESULT`. -/
def Obligations.LengthAgainstEncoder : Prop :=
  ∀ (v : Value) (s : State) (tail : List HostEvent), s.script = encodeScript v 6 tail →
    ∃ t bytes, Host.Core.run core 7 s = .next t ∧ t.output = s.output ++ bytes ∧
      t.result = BitVec.ofNat 64 bytes.length ∧ t.done = true ∧ bytes.length = min (len7 v) 6 ∧
      (v.toNat < 2 ^ 42 → len7 v = bytes.length) ∧ (2 ^ 42 ≤ v.toNat → bytes.length = 6 ∧ 7 ≤ len7 v)

/-! ### DEC7 and the byte-in step -/

/-- R90: `DEC7` in any state, with any `VALUE`, writes `ACC`, `SHIFT`, `DONE` and `MODE` and nothing else; it consumes no byte, and
bytes consumed before stay consumed. After it `IN_READY = 1`, and `RESULT` may not be read. -/
def Obligations.Dec7StartsDecode : Prop :=
  ∀ (v : Value) (s : State), ∃ t, exec (.dec7 v) s = .next t ∧
    t = { s with acc := 0#64, shift := 0#6, done := false, mode := .dec } ∧ inReady t = true ∧
    readResult t = .error .resultUnspecified

/-- R91: a `ByteIn` step, for every decode in flight (`RegistersSound` holds of each, StepKeepsRegistersSound) and every
byte: `ACC`, `SHIFT`, whether the decode goes on, and what the last byte writes; one byte leaves the input stream; nothing else changes. It is taken in `MODE = DEC` only; the groups are
disjoint, so the OR is the sum. The two steps of the rule's example. -/
def Obligations.ByteInAddsGroup : Prop :=
  ∀ (s : State) (b : Byte) (rest : List Byte), RegistersSound s → byteInTaken s = true → s.input = b :: rest →
    s.mode = .dec ∧ ∃ t, step s = .next t ∧
      t.acc = s.acc ||| ((b &&& 0x7F#8).setWidth 64 <<< s.shift.toNat) ∧ t.shift = s.shift + 7#6 ∧
      (if b &&& 0x80#8 ≠ 0#8 ∧ s.shift.toNat + 7 ≤ 35
        then t.mode = .dec ∧ t.done = s.done ∧ t.result = s.result
        else t.mode = .idle ∧ t.done = true ∧ t.result = t.acc) ∧
      t.input = rest ∧ t.output = s.output ∧ t.size = s.size ∧ t.cmdErr = s.cmdErr ∧ t.samples = s.samples ∧
      t.script = s.script.tail ∧
      t.acc.toNat = s.acc.toNat + (b.toNat % 128) * 2 ^ s.shift.toNat ∧
      (s.acc = 0#64 → s.shift = 0#6 → b = 0xAC#8 → t.acc = 0x2C#64 ∧ t.shift = 7#6 ∧ t.mode = .dec) ∧
      (s.acc = 0x2C#64 → s.shift = 7#6 → b = 0x02#8 →
        t.acc = 0x12C#64 ∧ t.shift = 14#6 ∧ t.result = 300#64 ∧ t.done = true ∧ t.mode = .idle)

/-- R93 for `W = 64`: in a sound state no bit of a group is dropped, and the highest bit a decode can set is bit 41. -/
def Obligations.GroupsAddWithoutLoss : Prop :=
  ∀ (s t : State) (b : Byte) (rest : List Byte), RegistersSound s → byteInTaken s = true → s.input = b :: rest →
    step s = .next t →
    (placeGroup b s.shift.toNat : Value).toNat = (b.toNat % 128) * 2 ^ s.shift.toNat ∧ t.acc.toNat < 2 ^ 42

/-- R93: on any value width `w` the decoder's loop gives the sum of the groups modulo `2^w`; up to six bytes stay below 2^42, so
nothing is dropped for `w >= 42`; the example for `W = 32`. -/
def Obligations.DecoderDropsBitsAboveWidth : Prop :=
  (∀ (w : Nat) (bytes : List Byte), (accumulateAll 0 (0#w) bytes).toNat = wireSum 0 bytes % 2 ^ w) ∧
  (∀ (w : Nat) (bytes : List Byte), bytes.length ≤ 6 → 42 ≤ w →
    (accumulateAll 0 (0#w) bytes).toNat = wireSum 0 bytes ∧ wireSum 0 bytes < 2 ^ 42) ∧
  accumulateAll 0 (0#32) [0xFF#8, 0xFF#8, 0xFF#8, 0xFF#8, 0xFF#8, 0xFF#8] = 0xFFFFFFFF#32

/-- R98: a whole decode, from any state and over any stream that holds an integer. It consumes the bytes up to the first clear
flag, or six, at least one, and leaves the rest in the stream; `RESULT` is the sum of their groups modulo `2^W`; the output stream
and `CMD_ERR` do not change. -/
def Obligations.DecodeRunsToClosedForm : Prop :=
  ∀ (s : State) (v : Value) (tail : List HostEvent), holdsInteger 6 s.input = true →
    s.script = decodeScript v (integerBytes 6 s.input).length tail →
    ∃ t, Host.Core.run core ((integerBytes 6 s.input).length + 1) s = .next t ∧
      1 ≤ (integerBytes 6 s.input).length ∧ (integerBytes 6 s.input).length ≤ 6 ∧
      t.mode = .idle ∧ t.done = true ∧ t.result = BitVec.ofNat 64 (wireSum 0 (integerBytes 6 s.input)) ∧
      s.input = integerBytes 6 s.input ++ t.input ∧ t.output = s.output ∧ t.cmdErr = s.cmdErr ∧ t.script = tail

/-! ### ENC7 and the byte-out step -/

/-- R110: `ENC7 v` in any state writes `ACC`, `SIZE`, `DONE` and `MODE` and nothing else; it emits no byte, and its first byte is
presented at once; `RESULT` may not be read. The worked example, and the one byte of `v = 0`. -/
def Obligations.Enc7StartsEncode : Prop :=
  ∀ (v : Value) (s : State), ∃ t, exec (.enc7 v) s = .next t ∧
    t = { s with acc := v, size := 0#3, done := false, mode := .enc } ∧ outValid t = true ∧
    outByte t = encodedByte v.toNat 0 ∧ readResult t = .error .resultUnspecified ∧
    (v = 300#64 → outByte t = 0xAC#8) ∧ (v = 0#64 → outByte t = 0x00#8)

/-- R111, R29: the port outputs. While `MODE = ENC` the presented byte is the group of `ACC` with its flag set exactly when
value bits remain; at any other moment `OUT_BYTE` is left open. -/
def Obligations.PortOutputsFollowMode : Prop :=
  ∀ s : State, (inReady s = true ↔ s.mode = .dec) ∧ (outValid s = true ↔ s.mode = .enc) ∧
    (s.mode = .enc →
      outByte s = (s.acc.setWidth 8 &&& 0x7F#8) ||| (if s.acc >>> 7 ≠ 0#64 then 0x80#8 else 0x00#8) ∧
      (outByte s).toNat = s.acc.toNat % 128 + (if s.acc.toNat < 128 then 0 else 128))

/-- R112: a `ByteOut` step, for every encode in flight (`RegistersSound` holds of each, StepKeepsRegistersSound): the
presented byte goes to the output stream; `ACC`, `SIZE`, whether the encode goes on, and what the last byte writes; nothing else changes. It is taken in `MODE = ENC` only, and the loop condition is
the source's `value >= 0x80`. The two steps of the rule's example. -/
def Obligations.ByteOutSendsGroup : Prop :=
  ∀ s : State, RegistersSound s → byteOutTaken s = true → s.mode = .enc ∧ ∃ t, step s = .next t ∧
    t.output = s.output ++ [outByte s] ∧
    outByte s = (s.acc.setWidth 8 &&& 0x7F#8) ||| (if s.acc >>> 7 ≠ 0#64 then 0x80#8 else 0x00#8) ∧
    t.acc = s.acc >>> 7 ∧ t.size = s.size + 1#3 ∧
    (if s.acc >>> 7 ≠ 0#64 ∧ s.size.toNat + 1 ≤ 5
      then t.mode = .enc ∧ t.done = s.done ∧ t.result = s.result
      else t.mode = .idle ∧ t.done = true ∧ t.result.toNat = s.size.toNat + 1) ∧
    t.input = s.input ∧ t.shift = s.shift ∧ t.cmdErr = s.cmdErr ∧ t.samples = s.samples ∧ t.script = s.script.tail ∧
    (s.acc >>> 7 ≠ 0#64 ↔ 0x80 ≤ s.acc.toNat) ∧
    (s.acc = 300#64 → s.size = 0#3 → outByte s = 0xAC#8 ∧ t.acc = 2#64 ∧ t.size = 1#3 ∧ t.mode = .enc) ∧
    (s.acc = 2#64 → s.size = 1#3 →
      outByte s = 0x02#8 ∧ t.acc = 0#64 ∧ t.size = 2#3 ∧ t.result = 2#64 ∧ t.done = true ∧ t.mode = .idle)

/-- R113: a whole encode, from any state and for any value: at least one byte and at most six go to the output stream in order,
`RESULT` is their number `min(len7(v), 6)`, the input stream and `CMD_ERR` do not change. -/
def Obligations.EncodeRunsToEncoding : Prop :=
  ∀ (s : State) (v : Value) (tail : List HostEvent), s.script = encodeScript v (encodedLength v) tail →
    ∃ t, Host.Core.run core (encodedLength v + 1) s = .next t ∧
      1 ≤ encodedLength v ∧ encodedLength v ≤ 6 ∧ encodedLength v = min (len7 v) 6 ∧
      t.mode = .idle ∧ t.done = true ∧ t.output = s.output ++ encoding v ∧ t.result.toNat = encodedLength v ∧
      t.input = s.input ∧ t.cmdErr = s.cmdErr ∧ t.script = tail

/-- R62, R114: for `v < 2^42` what `ENC7 v` emits is the canonical encoding: `len7(v)` bytes, 1 to 6, each its group, with the flag
on every byte but the last; it never ends in a byte `0x00` but as the one byte of 0. Its wire value is `v` (R61). -/
def Obligations.CanonicalEncoding : Prop :=
  ∀ (v : Value) (s : State) (tail : List HostEvent), v.toNat < 2 ^ 42 → s.script = encodeScript v (len7 v) tail →
    ∃ t bytes, Host.Core.run core (len7 v + 1) s = .next t ∧ t.mode = .idle ∧ t.output = s.output ++ bytes ∧
      bytes.length = len7 v ∧ 1 ≤ len7 v ∧ len7 v ≤ 6 ∧
      (∀ (k : Nat) (b : Byte), bytes[k]? = some b →
        b.toNat = (v.toNat >>> (7 * k)) % 128 + (if k + 1 < len7 v then 128 else 0)) ∧
      (bytes.getLast? = some 0x00#8 → v = 0#64 ∧ bytes = [0x00#8]) ∧ wireSum 0 bytes = v.toNat

/-- R115: for `v >= 2^42` the encode emits six bytes, which carry bits 0 to 41; the sixth is flagged, as all are; bits 42 and
up are lost; nothing signals it: the encode ends as any other, and `CMD_ERR` does not change. -/
def Obligations.OversizedValueTruncated : Prop :=
  ∀ (v : Value) (s : State) (tail : List HostEvent), 2 ^ 42 ≤ v.toNat → s.script = encodeScript v 6 tail →
    ∃ t bytes, Host.Core.run core 7 s = .next t ∧ t.mode = .idle ∧ t.done = true ∧ t.result = 6#64 ∧
      t.cmdErr = s.cmdErr ∧ t.output = s.output ++ bytes ∧ bytes.length = 6 ∧ (∀ b ∈ bytes, 128 ≤ b.toNat) ∧
      wireSum 0 bytes = v.toNat % 2 ^ 42

/-- R116: the corner cases of the encoder, value, bytes and count. -/
def Obligations.EncoderCornerCases : Prop :=
  ∀ row ∈ [(0#64, [0x00#8]), (127#64, [0x7F#8]), (128#64, [0x80#8, 0x01#8]), (300#64, [0xAC#8, 0x02#8]),
      (16383#64, [0xFF#8, 0x7F#8]), (16384#64, [0x80#8, 0x80#8, 0x01#8]),
      (0x7FFFFFFFF#64, [0xFF#8, 0xFF#8, 0xFF#8, 0xFF#8, 0x7F#8]),
      (0x800000000#64, [0x80#8, 0x80#8, 0x80#8, 0x80#8, 0x80#8, 0x01#8]),
      (0x3FFFFFFFFFF#64, [0xFF#8, 0xFF#8, 0xFF#8, 0xFF#8, 0xFF#8, 0x7F#8]),
      (0x40000000000#64, [0x80#8, 0x80#8, 0x80#8, 0x80#8, 0x80#8, 0x80#8]),
      (0xFFFFFFFFFFFFFFFF#64, [0xFF#8, 0xFF#8, 0xFF#8, 0xFF#8, 0xFF#8, 0xFF#8])],
    ∀ (s : State) (tail : List HostEvent), s.script = encodeScript row.1 row.2.length tail →
      ∃ t, Host.Core.run core (row.2.length + 1) s = .next t ∧ t.output = s.output ++ row.2 ∧
        t.mode = .idle ∧ t.done = true ∧ t.result = BitVec.ofNat 64 row.2.length

/-- R117: the bytes an `ENC7 v` puts out depend on `v` alone: from any two states, after any number of takes, the same bytes
have been added to the output streams. -/
def Obligations.EncodingDependsOnValueOnly : Prop :=
  ∀ (v : Value) (n : Nat) (s₁ s₂ : State) (tail₁ tail₂ : List HostEvent),
    s₁.script = encodeScript v n tail₁ → s₂.script = encodeScript v n tail₂ →
    ∃ t₁ t₂ bytes, Host.Core.run core (n + 1) s₁ = .next t₁ ∧ Host.Core.run core (n + 1) s₂ = .next t₂ ∧
      t₁.output = s₁.output ++ bytes ∧ t₂.output = s₂.output ++ bytes ∧ bytes = (encoding v).take n

/-- R119: for every value, the bytes `ENC7 v` emits are as many as it reports; below 2^42 they are `len7(v)` many; and a
`DEC7` fed them, from any state and with anything behind them in the stream, consumes exactly them and gives `v mod 2^42`. -/
def Obligations.RoundTripModuloCap : Prop :=
  ∀ (v : Value) (s : State) (tail : List HostEvent), s.script = encodeScript v (encodedLength v) tail →
    ∃ t bytes, Host.Core.run core (encodedLength v + 1) s = .next t ∧ t.output = s.output ++ bytes ∧
      t.mode = .idle ∧ t.result.toNat = bytes.length ∧ (v.toNat < 2 ^ 42 → len7 v = bytes.length) ∧
      ∀ (s' : State) (left : List Byte) (u : Value) (tail' : List HostEvent),
        s'.input = bytes ++ left → s'.script = decodeScript u bytes.length tail' →
        ∃ t', Host.Core.run core (bytes.length + 1) s' = .next t' ∧ t'.mode = .idle ∧ t'.done = true ∧
          t'.result.toNat = v.toNat % 2 ^ 42 ∧ t'.input = left

/-! ### CmdError -/

/-- R69: `OP = 0b11`, with any `VALUE`, is the one reserved encoding, and its only effect, in any state, is `CMD_ERR <- 1`: an
operation in flight continues. (R131's "model treatment" as a faulted run is the predicate `Faulted`, log entry 4.) -/
def Obligations.ReservedSetsCmdErrOnly : Prop :=
  (∀ w : CmdWord, opField w = 0b11#2 ↔ decode w = .reserved (valueField w)) ∧
  ∀ (v : Value) (s : State), exec (.reserved v) s = .next { s with cmdErr := true }

/-- R27: `CMD_ERR` is sticky: a step sets it exactly by taking a reserved word, clears it exactly by a reset, and else
keeps it. -/
def Obligations.CmdErrIsSticky : Prop :=
  ∀ s t : State, step s = .next t → (t.cmdErr = true ↔ resetPresented s = false ∧ (s.cmdErr = true ∨ reservedTaken s = true))

/-- R131, R160: a faulted run stays faulted for good, through any number of steps, as long as no reset is presented. -/
def Obligations.FaultedForGood : Prop :=
  ∀ (k : Nat) (s t : State), Faulted s → noReset s.script = true → Host.Core.run core k s = .next t → Faulted t

/-! ### What the host sees -/

/-- R28: the layout of `STATUS`, field by field, and its value after reset; no register and neither stream changes in a step that takes
no reset, no command and no byte transfer, a `Read` among them. -/
def Obligations.StatusLayout : Prop :=
  (∀ s : State, (statusWord s).extractLsb' 0 2 = modeBits s.mode ∧ (statusWord s).getLsbD 2 = s.done ∧
    (statusWord s).getLsbD 3 = s.cmdErr ∧ (statusWord s).extractLsb' 4 4 = 0#4) ∧
  statusWord State.reset = 0x00#8 ∧
  ∀ s t : State, step s = .next t → resetPresented s = false → commandTaken s = none → byteInTaken s = false →
    byteOutTaken s = false →
    t.mode = s.mode ∧ t.acc = s.acc ∧ t.shift = s.shift ∧ t.size = s.size ∧ t.result = s.result ∧ t.done = s.done ∧
      t.cmdErr = s.cmdErr ∧ t.input = s.input ∧ t.output = s.output

/-- R12, R28: a `Read` step gives the host what it samples and changes no register, stream or output. `STATUS` can be read at
any time, `RESULT` while `DONE = 1`. (The list of samples is the model's own record of the host's side, log entry 3.) -/
def Obligations.ReadChangesNothing : Prop :=
  ∀ (s : State) (sel : ReadSel) (rest : List HostEvent), s.script = .read sel :: rest → (sel = .status ∨ s.done = true) →
    ∃ xs, step s = .next { s with samples := s.samples ++ xs, script := rest, tick := s.tick + 1 } ∧
      (sel = .status → xs = [.status (statusWord s)]) ∧ (sel = .result → xs = [.result s.result]) ∧
      (sel = .both → xs = [.status (statusWord s), .result s.result])

/-- R153, R25: a read of `RESULT` while `DONE = 0` is a fault of the model, in any `MODE`. -/
def Obligations.EarlyResultReadFaults : Prop :=
  ∀ (s : State) (sel : ReadSel) (rest : List HostEvent), s.script = .read sel :: rest → sel ≠ .status → s.done = false →
    step s = .fault .resultUnspecified

/-! ### The ports and their streams -/

/-- R54, R96: a byte offered while `MODE` is not `DEC` stays at the front of the host's stream, and a take attempted while `MODE` is
not `ENC` receives nothing: no register and neither stream changes. A decode whose host has no byte waits, which is a step that
changes nothing (log entry 9). (That the attempt is then over, so that the host's next event follows, is the model's choice, log
entry 10.) -/
def Obligations.TransferNotEnabledDoesNothing : Prop :=
  ∀ (s : State) (p : Presented) (rest : List HostEvent), s.script = .present p :: rest → p.reset = false →
    p.command = none → (p.supply = true → s.mode ≠ .dec ∨ s.input = []) → (p.take = true → s.mode ≠ .enc) →
    step s = .next { s with script := rest, tick := s.tick + 1 }

/-- R48, R49, R43: a step takes at most one byte off the front of the input stream, exactly when it is a `ByteIn`, and adds at
most one byte to the output stream, exactly when it is a `ByteOut`: the presented one. Nothing else moves a byte. (That a reset
presented with a byte in `DEC` leaves the byte in the stream is the model's reading, log entry 8, DEDUCED.) -/
def Obligations.StreamsMoveOneByteInOrder : Prop :=
  ∀ s t : State, step s = .next t →
    (byteInTaken s = true → ∃ b, s.input = b :: t.input) ∧ (byteInTaken s = false → t.input = s.input) ∧
    (byteOutTaken s = true → t.output = s.output ++ [outByte s]) ∧ (byteOutTaken s = false → t.output = s.output)

/-! ### Which steps write what -/

/-- R21: the encodings of `MODE`, `0b11` never held, and the four places it is written: an accepted command, the byte that ends a
decode, the byte that ends an encode, reset. -/
def Obligations.ModeWrittenInFourPlaces : Prop :=
  (modeBits .idle = 0b00#2 ∧ modeBits .dec = 0b01#2 ∧ modeBits .enc = 0b10#2 ∧ ∀ m, modeBits m ≠ 0b11#2) ∧
  ∀ s t : State, step s = .next t → t.mode ≠ s.mode →
    (resetPresented s = true ∧ t.mode = .idle) ∨
    (∃ w, commandTaken s = some w ∧ ((opField w = 0b00#2 ∧ t.mode = .idle) ∨ (opField w = 0b01#2 ∧ t.mode = .dec) ∨
      (opField w = 0b10#2 ∧ t.mode = .enc))) ∨
    (byteInTaken s = true ∧ s.mode = .dec ∧ t.mode = .idle) ∨ (byteOutTaken s = true ∧ s.mode = .enc ∧ t.mode = .idle)

/-- R25: but for reset, `RESULT` changes at a completion only, where `DONE = 1` and `MODE = IDLE` after it: to the length by `LEN7`, to
the decoded value by the last byte in, to the number of bytes by the last byte out
(exact, where `SIZE` of a state no run reaches cannot hold it: log entry 5). -/
def Obligations.ResultWrittenAtCompletionOnly : Prop :=
  ∀ s t : State, step s = .next t → resetPresented s = false → t.result ≠ s.result →
    t.done = true ∧ t.mode = .idle ∧
    ((∃ w, commandTaken s = some w ∧ opField w = 0b00#2 ∧ t.result = BitVec.ofNat 64 (len7 (valueField w))) ∨
      (byteInTaken s = true ∧ t.result = t.acc) ∨ (byteOutTaken s = true ∧ t.result.toNat = s.size.toNat + 1))

/-- R26: the writers of `DONE`, each with what it writes; a reserved word and everything else leave it. -/
def Obligations.DoneWriters : Prop :=
  ∀ s t : State, step s = .next t →
    (resetPresented s = true → t.done = false) ∧
    (∀ w, commandTaken s = some w → (opField w = 0b00#2 → t.done = true) ∧
      (opField w = 0b01#2 ∨ opField w = 0b10#2 → t.done = false) ∧ (opField w = 0b11#2 → t.done = s.done)) ∧
    (byteInTaken s = true ∨ byteOutTaken s = true → t.done = (s.done || t.mode == .idle)) ∧
    (resetPresented s = false → commandTaken s = none → byteInTaken s = false → byteOutTaken s = false → t.done = s.done)

/-! ### Abandoning, and what no host can see -/

/-- R154, R32: a command accepted in any `MODE` starts afresh. From two states that differ in the operation in flight (its `MODE`,
`ACC`, `SHIFT`, `SIZE`, `RESULT`, `DONE`) it leads to states no host can tell apart; the bytes transferred stay transferred, and
`DEC7` and `ENC7` leave `RESULT`. A reserved word abandons nothing. -/
def Obligations.CommandAbandonsOperation : Prop :=
  (∀ (i : Instr) (s₁ s₂ : State), (∀ v, i ≠ .reserved v) → s₁.cmdErr = s₂.cmdErr → s₁.input = s₂.input →
    s₁.output = s₂.output → s₁.samples = s₂.samples → s₁.script = s₂.script → s₁.tick = s₂.tick →
    ∃ t₁ t₂, exec i s₁ = .next t₁ ∧ exec i s₂ = .next t₂ ∧ SameView t₁ t₂ ∧
      t₁.input = s₁.input ∧ t₁.output = s₁.output ∧
      ((∀ v, i ≠ .len7 v) → t₁.result = s₁.result ∧ t₂.result = s₂.result)) ∧
  ∀ (v : Value) (s t : State), exec (.reserved v) s = .next t →
    t.mode = s.mode ∧ t.acc = s.acc ∧ t.shift = s.shift ∧ t.size = s.size ∧ t.done = s.done ∧ t.result = s.result

/-- R22, R23, R24, R32: registers that hold nothing of the operation in flight are never observable. Two states no host can
tell apart take steps of the same kind to states no host can tell apart; `STATUS`, a read, `IN_READY`, `OUT_VALID` and, while it
is valid, `OUT_BYTE` are equal in both. -/
def Obligations.IdleRegistersUnobservable : Prop :=
  ∀ s₁ s₂ : State, SameView s₁ s₂ →
    (statusWord s₁ = statusWord s₂ ∧ inReady s₁ = inReady s₂ ∧ outValid s₁ = outValid s₂ ∧
      (s₁.mode = .enc → outByte s₁ = outByte s₂) ∧
      ∀ sel, readWords sel s₁ = readWords sel s₂) ∧
    (∀ t₁, step s₁ = .next t₁ → ∃ t₂, step s₂ = .next t₂ ∧ SameView t₁ t₂) ∧
    (∀ f, step s₁ = .fault f → step s₂ = .fault f)

/-! ### Invariants and bounds -/

/-- The registers are sound at reset. -/
def Obligations.ResetRegistersSound : Prop := RegistersSound State.reset

/-- R22, R23, R24, R26: every step keeps the registers sound, from every sound state: while a decode is in flight `SHIFT` is one
of 0, 7, 14, 21, 28, 35 and `ACC` lies below it; while an encode is in flight `SIZE` is 0 to 5 and bits remain; `DONE` only in `IDLE`. -/
def Obligations.StepKeepsRegistersSound : Prop :=
  ∀ s t : State, RegistersSound s → step s = .next t → RegistersSound t

/-- R161: with a host that supplies, a decode in flight ends within six bytes, and with a host that takes, an encode in flight ends
within six takes, wherever in the operation the host begins. -/
def Obligations.OperationsEndWithinSixTransfers : Prop :=
  (∀ (s : State) (tail : List HostEvent), RegistersSound s → s.mode = .dec → 6 ≤ s.input.length →
    s.script = List.replicate 6 supplyEvent ++ tail →
    ∃ k t, 1 ≤ k ∧ k ≤ 6 ∧ Host.Core.run core k s = .next t ∧ t.mode = .idle ∧ t.done = true) ∧
  (∀ (s : State) (tail : List HostEvent), RegistersSound s → s.mode = .enc → s.script = List.replicate 6 takeByteEvent ++ tail →
    ∃ k t, 1 ≤ k ∧ k ≤ 6 ∧ Host.Core.run core k s = .next t ∧ t.mode = .idle ∧ t.done = true)

/-! ### Host programs and several blocks -/

/-- R71: the lines of a host program present the words of the table. A raw word is presented as it stands, and its top digit
`OP` selects its command, the reserved one among them, with any `VALUE`. `IN <b>` lines offer a byte each, and it is `b` that
stands in the host's stream for it, in the order of the lines (that the bytes stand there from the start, and that the offered
byte is the stream's front, is the model's choice, log entry 11); no other line puts a byte there. A line whose number does not
fit its field assembles to nothing (for a raw word: log entry 7). -/
def Obligations.HostLinesPresentTheirWords : Prop :=
  (∀ v : Nat, v < 2 ^ 64 →
    assemble [.len7 v] = some [commandEvent (encode (.len7 (BitVec.ofNat 64 v)))] ∧
    assemble [.enc7 v] = some [commandEvent (encode (.enc7 (BitVec.ofNat 64 v)))]) ∧
  (∀ w : Nat, w < 2 ^ 66 → assemble [.word w] = some [commandEvent (BitVec.ofNat 66 w)] ∧
    (w / 2 ^ 64 = 0b00 → decode (BitVec.ofNat 66 w) = .len7 (BitVec.ofNat 64 w)) ∧
    (w / 2 ^ 64 = 0b01 → decode (BitVec.ofNat 66 w) = .dec7 (BitVec.ofNat 64 w)) ∧
    (w / 2 ^ 64 = 0b10 → decode (BitVec.ofNat 66 w) = .enc7 (BitVec.ofNat 64 w)) ∧
    (w / 2 ^ 64 = 0b11 → decode (BitVec.ofNat 66 w) = .reserved (BitVec.ofNat 64 w))) ∧
  assemble [.dec7] = some [commandEvent (encode (.dec7 0#64))] ∧
  assemble [.enc7 300] = some [commandEvent 0x2000000000000012C#66] ∧
  (∀ (bytes : List Nat) (left : List Byte) (s : State), (∀ b ∈ bytes, b < 256) →
    loadProgram (bytes.map .input) left s =
      some { s with
        script := List.replicate bytes.length supplyEvent
        input := bytes.map (BitVec.ofNat 8) ++ left }) ∧
  (∀ (line : HostLine) (e : HostEvent) (left : List Byte) (s : State), (∀ b, line ≠ .input b) → assemble [line] = some [e] →
    loadProgram [line] left s = some { s with script := [e], input := left }) ∧
  (∀ name : String, assemble [.output name] = some [takeByteEvent]) ∧
  assemble [.rd] = some [.read .both] ∧ assemble [.rst] = some [resetEvent] ∧
  (∀ v : Nat, 2 ^ 64 ≤ v → assemble [.len7 v] = none ∧ assemble [.enc7 v] = none) ∧
  (∀ b : Nat, 256 ≤ b → assemble [.input b] = none) ∧ (∀ w : Nat, 2 ^ 66 ≤ w → assemble [.word w] = none)

/-- R8, R139: blocks share no state: a step of one block is its own step, and it changes no other block. -/
def Obligations.BlocksShareNoState : Prop :=
  ∀ (i : Nat) (blocks blocks' : List State) (s : State), blocks[i]? = some s → stepBlock i blocks = .next blocks' →
    (∃ t, step s = .next t ∧ blocks'[i]? = some t) ∧ blocks'.length = blocks.length ∧
    ∀ j, j ≠ i → blocks'[j]? = blocks[j]?
end

