-- ==== Sys2Proof/Laws/Datapath.lean ====
section
/-! SUPPORT. The arithmetic of the datapath: what the byte fields, the group placement, the presented byte and `len7` are
as numbers. -/

namespace Sys2Proof.Machine

/-! ### Fields of an encoded byte -/

theorem contFlag_eq (b : Byte) : contFlag b = decide (128 ≤ b.toNat) := by
  revert b; unfold contFlag Config.cont; decide

theorem group_toNat (b : Byte) : (group b).toNat = b.toNat % 128 := by
  revert b; unfold group Config.gmask; decide

theorem group_toNat_lt (b : Byte) : (group b).toNat < 128 := by
  rw [group_toNat]; omega

/-! ### Placing a group -/

theorem placeGroup_toNat {w : Nat} (b : Byte) (shift : Nat) :
    (placeGroup b shift : BitVec w).toNat = (b.toNat % 128) * 2 ^ shift % 2 ^ w := by
  simp only [placeGroup, BitVec.toNat_shiftLeft, BitVec.toNat_setWidth, group_toNat, Nat.shiftLeft_eq]
  rw [Nat.mod_mul_mod]

/-- A group placed at or above the bits held so far adds to them: the OR is the sum (spec/41_decode.md R91), kept modulo
`2^w` (R93). -/
theorem accumulate_toNat {w : Nat} (acc : BitVec w) (n shift : Nat) (b : Byte) (hn : n < 2 ^ shift)
    (hacc : acc.toNat = n % 2 ^ w) :
    (accumulate acc shift b).toNat = (n + (b.toNat % 128) * 2 ^ shift) % 2 ^ w := by
  rw [accumulate, BitVec.toNat_or, hacc, placeGroup_toNat, ← Nat.or_mod_two_pow, Nat.mul_comm, Nat.lor_comm,
    ← Nat.two_pow_add_eq_or_of_lt hn, Nat.add_comm]

/-! ### The presented byte and the remainder -/

theorem remaining_toNat {w : Nat} (v : BitVec w) : (remaining v).toNat = v.toNat / 128 := by
  simp [remaining, Config.groupBits, Nat.shiftRight_eq_div_pow]

theorem remaining_eq_zero {w : Nat} (v : BitVec w) : remaining v = 0#w ↔ v.toNat < 128 := by
  rw [← BitVec.toNat_inj, remaining_toNat]
  simp only [BitVec.toNat_ofNat, Nat.zero_mod]
  omega

theorem byte_with_flag (g : Byte) : (g &&& Config.gmask ||| Config.cont).toNat = g.toNat % 128 + 128 := by
  revert g; unfold Config.gmask Config.cont; decide

/-- The byte on the byte-out port as a number (spec/42_encode.md R111). -/
theorem presentedByte_toNat {w : Nat} (v : BitVec w) :
    (presentedByte v).toNat = v.toNat % 128 + if v.toNat < 128 then 0 else 128 := by
  have hlow : (v.setWidth 8).toNat % 128 = v.toNat % 128 := by
    rw [BitVec.toNat_setWidth]; omega
  by_cases h : v.toNat < 128
  · have hg := group_toNat (v.setWidth 8)
    rw [group, hlow] at hg
    rw [presentedByte, if_pos ((remaining_eq_zero v).2 h), if_pos h, BitVec.or_zero, hg, Nat.add_zero]
  · rw [presentedByte, if_neg (fun hr => h ((remaining_eq_zero v).1 hr)), if_neg h, byte_with_flag, hlow]

theorem contFlag_presentedByte {w : Nat} (v : BitVec w) : contFlag (presentedByte v) = decide (128 ≤ v.toNat) := by
  rw [contFlag_eq, presentedByte_toNat]
  split <;> (congr 1; apply propext; omega)

/-! ### The length loop -/

theorem len7Loop_succ {w : Nat} (f : Nat) (v : BitVec w) :
    len7Loop (f + 1) v = if remaining v = 0#w then 1 else len7Loop f (remaining v) + 1 := rfl

/-- The loop's count does not depend on a bound that is large enough (spec/40_length.md R81). -/
theorem len7Loop_fuel {w : Nat} : ∀ (f g : Nat) (v : BitVec w), v.toNat < 2 ^ f → v.toNat < 2 ^ g →
    len7Loop (f + 1) v = len7Loop (g + 1) v
  | 0, 0, _, _, _ => rfl
  | 0, g + 1, v, hf, _ => by
    have hz : remaining v = 0#w := (remaining_eq_zero v).2 (by simp at hf; omega)
    simp [len7Loop, hz]
  | f + 1, 0, v, _, hg => by
    have hz : remaining v = 0#w := (remaining_eq_zero v).2 (by simp at hg; omega)
    simp [len7Loop, hz]
  | f + 1, g + 1, v, hf, hg => by
    rw [len7Loop_succ (f + 1), len7Loop_succ (g + 1)]
    split
    · rfl
    · rw [len7Loop_fuel f g (remaining v) (by rw [remaining_toNat]; rw [pow_succ] at hf; omega)
        (by rw [remaining_toNat]; rw [pow_succ] at hg; omega)]

/-- One iteration of the loop of spec/40_length.md R81. -/
theorem len7_step {w : Nat} (v : BitVec w) (h : remaining v ≠ 0#w) : len7 v = len7 (remaining v) + 1 := by
  have hv := v.isLt
  rw [len7, len7Loop, if_neg h]
  obtain _ | w := w
  · exact absurd (Subsingleton.elim _ _) h
  · rw [len7, len7Loop_fuel w (w + 1)]
    · rw [remaining_toNat]; rw [pow_succ] at hv; omega
    · exact (remaining v).isLt

theorem len7_of_small {w : Nat} (v : BitVec w) (h : v.toNat < 128) : len7 v = 1 := by
  rw [len7, len7Loop, if_pos ((remaining_eq_zero v).2 h)]

theorem len7_pos {w : Nat} (v : BitVec w) : 1 ≤ len7 v := by
  rw [len7, len7Loop]; split <;> omega

/-- `len7 v` is the least number of 7-bit groups that hold `v` (spec/40_length.md R81). -/
theorem len7_le_iff {w : Nat} : ∀ (k : Nat) (v : BitVec w), len7 v ≤ k + 1 ↔ v.toNat < 2 ^ (7 * (k + 1))
  | 0, v => by
    by_cases h : v.toNat < 128
    · simp [len7_of_small v h, h]
    · have hs := len7_step v (fun hr => h ((remaining_eq_zero v).1 hr))
      have hp := len7_pos (remaining v)
      simp only [Nat.zero_add, Nat.mul_one]
      constructor
      · omega
      · intro hlt; exact absurd hlt (by simpa using h)
  | k + 1, v => by
    by_cases h : v.toNat < 128
    · have hb : v.toNat < 2 ^ (7 * (k + 1 + 1)) :=
        lt_of_lt_of_le h (Nat.pow_le_pow_right (n := 2) (by decide) (by omega : 7 ≤ 7 * (k + 1 + 1)))
      simp [len7_of_small v h, hb]
    · have hs := len7_step v (fun hr => h ((remaining_eq_zero v).1 hr))
      have ih := len7_le_iff k (remaining v)
      rw [remaining_toNat] at ih
      rw [hs, Nat.add_le_add_iff_right, ih, show 7 * (k + 1 + 1) = 7 * (k + 1) + 7 by omega, pow_add]
      omega

end Sys2Proof.Machine
end

