-- ==== Sys2Proof/Laws/PerInstr.lean ====
section
/-! SUPPORT. What holds of each instruction as syntax: it is well formed, and its word carries its `OP` and its `VALUE`
where spec/30_encoding.md R66 puts them. One lemma per constructor. -/

namespace Sys2Proof.Laws

theorem opField_append (op : BitVec 2) (v : Value) : opField (op ++ v) = op := by
  ext i hi
  simp only [opField, BitVec.getElem_extractLsb', BitVec.getLsbD_append]
  simp [BitVec.getLsbD_eq_getElem hi]

theorem valueField_append (op : BitVec 2) (v : Value) : valueField (op ++ v) = v := by
  ext i hi
  simp only [valueField, BitVec.getElem_extractLsb', BitVec.getLsbD_append, Nat.zero_add]
  simp [hi]

/-- A command word is its two fields (spec/30_encoding.md R66). -/
theorem word_of_fields (w : CmdWord) : opField w ++ valueField w = w := by
  rw [← BitVec.toNat_inj]
  have hw := w.isLt
  simp only [opField, valueField, BitVec.toNat_append, BitVec.extractLsb'_toNat, Nat.shiftLeft_eq,
    Nat.shiftRight_eq_div_pow, pow_zero, Nat.div_one]
  rw [Nat.mul_comm, ← Nat.two_pow_add_eq_or_of_lt (Nat.mod_lt _ (by decide))]
  omega

end Sys2Proof.Laws

namespace Sys2Proof.Laws.Encoding

/-- A well-formed instruction whose word holds its `OP` and its `VALUE` (spec/30_encoding.md R66, R67). -/
def Statement (i : Instr) : Prop :=
  i.wellFormed = true ∧ opField (encode i) = i.op ∧ valueField (encode i) = i.value

theorem of_fields (i : Instr) : Statement i :=
  ⟨by simp [Instr.wellFormed, Config.valueWidth, i.value.isLt], opField_append _ _, valueField_append _ _⟩

theorem len7 (value : Value) : Statement (.len7 value) := of_fields _

theorem dec7 (value : Value) : Statement (.dec7 value) := of_fields _

theorem enc7 (value : Value) : Statement (.enc7 value) := of_fields _

theorem reserved (value : Value) : Statement (.reserved value) := of_fields _

end Sys2Proof.Laws.Encoding
end

