-- ==== Sys2Proof/Laws/State.lean ====
section
/-! SUPPORT. The registers and the host's side after each named operation: one lemma per field per operation, so that
no proof unfolds a record update. -/

namespace Sys2Proof.Machine

/-! `complete` -/

@[simp] theorem complete_mode (v : Value) (s : State) :
    (complete v s).mode = .idle := rfl
@[simp] theorem complete_acc (v : Value) (s : State) :
    (complete v s).acc = s.acc := rfl
@[simp] theorem complete_shift (v : Value) (s : State) :
    (complete v s).shift = s.shift := rfl
@[simp] theorem complete_size (v : Value) (s : State) :
    (complete v s).size = s.size := rfl
@[simp] theorem complete_result (v : Value) (s : State) :
    (complete v s).result = v := rfl
@[simp] theorem complete_done (v : Value) (s : State) :
    (complete v s).done = true := rfl
@[simp] theorem complete_cmdErr (v : Value) (s : State) :
    (complete v s).cmdErr = s.cmdErr := rfl
@[simp] theorem complete_input (v : Value) (s : State) :
    (complete v s).input = s.input := rfl
@[simp] theorem complete_output (v : Value) (s : State) :
    (complete v s).output = s.output := rfl
@[simp] theorem complete_samples (v : Value) (s : State) :
    (complete v s).samples = s.samples := rfl
@[simp] theorem complete_script (v : Value) (s : State) :
    (complete v s).script = s.script := rfl
@[simp] theorem complete_tick (v : Value) (s : State) :
    (complete v s).tick = s.tick := rfl

/-! `beginDecode` -/

@[simp] theorem beginDecode_mode (s : State) :
    (beginDecode s).mode = .dec := rfl
@[simp] theorem beginDecode_acc (s : State) :
    (beginDecode s).acc = 0#64 := rfl
@[simp] theorem beginDecode_shift (s : State) :
    (beginDecode s).shift = 0#6 := rfl
@[simp] theorem beginDecode_size (s : State) :
    (beginDecode s).size = s.size := rfl
@[simp] theorem beginDecode_result (s : State) :
    (beginDecode s).result = s.result := rfl
@[simp] theorem beginDecode_done (s : State) :
    (beginDecode s).done = false := rfl
@[simp] theorem beginDecode_cmdErr (s : State) :
    (beginDecode s).cmdErr = s.cmdErr := rfl
@[simp] theorem beginDecode_input (s : State) :
    (beginDecode s).input = s.input := rfl
@[simp] theorem beginDecode_output (s : State) :
    (beginDecode s).output = s.output := rfl
@[simp] theorem beginDecode_samples (s : State) :
    (beginDecode s).samples = s.samples := rfl
@[simp] theorem beginDecode_script (s : State) :
    (beginDecode s).script = s.script := rfl
@[simp] theorem beginDecode_tick (s : State) :
    (beginDecode s).tick = s.tick := rfl

/-! `beginEncode` -/

@[simp] theorem beginEncode_mode (v : Value) (s : State) :
    (beginEncode v s).mode = .enc := rfl
@[simp] theorem beginEncode_acc (v : Value) (s : State) :
    (beginEncode v s).acc = v := rfl
@[simp] theorem beginEncode_shift (v : Value) (s : State) :
    (beginEncode v s).shift = s.shift := rfl
@[simp] theorem beginEncode_size (v : Value) (s : State) :
    (beginEncode v s).size = 0#3 := rfl
@[simp] theorem beginEncode_result (v : Value) (s : State) :
    (beginEncode v s).result = s.result := rfl
@[simp] theorem beginEncode_done (v : Value) (s : State) :
    (beginEncode v s).done = false := rfl
@[simp] theorem beginEncode_cmdErr (v : Value) (s : State) :
    (beginEncode v s).cmdErr = s.cmdErr := rfl
@[simp] theorem beginEncode_input (v : Value) (s : State) :
    (beginEncode v s).input = s.input := rfl
@[simp] theorem beginEncode_output (v : Value) (s : State) :
    (beginEncode v s).output = s.output := rfl
@[simp] theorem beginEncode_samples (v : Value) (s : State) :
    (beginEncode v s).samples = s.samples := rfl
@[simp] theorem beginEncode_script (v : Value) (s : State) :
    (beginEncode v s).script = s.script := rfl
@[simp] theorem beginEncode_tick (v : Value) (s : State) :
    (beginEncode v s).tick = s.tick := rfl

/-! `raiseCmdError` -/

@[simp] theorem raiseCmdError_mode (s : State) :
    (raiseCmdError s).mode = s.mode := rfl
@[simp] theorem raiseCmdError_acc (s : State) :
    (raiseCmdError s).acc = s.acc := rfl
@[simp] theorem raiseCmdError_shift (s : State) :
    (raiseCmdError s).shift = s.shift := rfl
@[simp] theorem raiseCmdError_size (s : State) :
    (raiseCmdError s).size = s.size := rfl
@[simp] theorem raiseCmdError_result (s : State) :
    (raiseCmdError s).result = s.result := rfl
@[simp] theorem raiseCmdError_done (s : State) :
    (raiseCmdError s).done = s.done := rfl
@[simp] theorem raiseCmdError_cmdErr (s : State) :
    (raiseCmdError s).cmdErr = true := rfl
@[simp] theorem raiseCmdError_input (s : State) :
    (raiseCmdError s).input = s.input := rfl
@[simp] theorem raiseCmdError_output (s : State) :
    (raiseCmdError s).output = s.output := rfl
@[simp] theorem raiseCmdError_samples (s : State) :
    (raiseCmdError s).samples = s.samples := rfl
@[simp] theorem raiseCmdError_script (s : State) :
    (raiseCmdError s).script = s.script := rfl
@[simp] theorem raiseCmdError_tick (s : State) :
    (raiseCmdError s).tick = s.tick := rfl

/-! `receiveGroup` -/

@[simp] theorem receiveGroup_mode (b : Byte) (s : State) :
    (receiveGroup b s).mode = s.mode := rfl
@[simp] theorem receiveGroup_acc (b : Byte) (s : State) :
    (receiveGroup b s).acc = accumulate s.acc s.shift.toNat b := rfl
@[simp] theorem receiveGroup_shift (b : Byte) (s : State) :
    (receiveGroup b s).shift = BitVec.ofNat 6 (nextShift s) := rfl
@[simp] theorem receiveGroup_size (b : Byte) (s : State) :
    (receiveGroup b s).size = s.size := rfl
@[simp] theorem receiveGroup_result (b : Byte) (s : State) :
    (receiveGroup b s).result = s.result := rfl
@[simp] theorem receiveGroup_done (b : Byte) (s : State) :
    (receiveGroup b s).done = s.done := rfl
@[simp] theorem receiveGroup_cmdErr (b : Byte) (s : State) :
    (receiveGroup b s).cmdErr = s.cmdErr := rfl
@[simp] theorem receiveGroup_input (b : Byte) (s : State) :
    (receiveGroup b s).input = s.input := rfl
@[simp] theorem receiveGroup_output (b : Byte) (s : State) :
    (receiveGroup b s).output = s.output := rfl
@[simp] theorem receiveGroup_samples (b : Byte) (s : State) :
    (receiveGroup b s).samples = s.samples := rfl
@[simp] theorem receiveGroup_script (b : Byte) (s : State) :
    (receiveGroup b s).script = s.script := rfl
@[simp] theorem receiveGroup_tick (b : Byte) (s : State) :
    (receiveGroup b s).tick = s.tick := rfl

/-! `sendGroup` -/

@[simp] theorem sendGroup_mode (s : State) :
    (sendGroup s).mode = s.mode := rfl
@[simp] theorem sendGroup_acc (s : State) :
    (sendGroup s).acc = remaining s.acc := rfl
@[simp] theorem sendGroup_shift (s : State) :
    (sendGroup s).shift = s.shift := rfl
@[simp] theorem sendGroup_size (s : State) :
    (sendGroup s).size = BitVec.ofNat 3 (nextSize s) := rfl
@[simp] theorem sendGroup_result (s : State) :
    (sendGroup s).result = s.result := rfl
@[simp] theorem sendGroup_done (s : State) :
    (sendGroup s).done = s.done := rfl
@[simp] theorem sendGroup_cmdErr (s : State) :
    (sendGroup s).cmdErr = s.cmdErr := rfl
@[simp] theorem sendGroup_input (s : State) :
    (sendGroup s).input = s.input := rfl
@[simp] theorem sendGroup_output (s : State) :
    (sendGroup s).output = s.output := rfl
@[simp] theorem sendGroup_samples (s : State) :
    (sendGroup s).samples = s.samples := rfl
@[simp] theorem sendGroup_script (s : State) :
    (sendGroup s).script = s.script := rfl
@[simp] theorem sendGroup_tick (s : State) :
    (sendGroup s).tick = s.tick := rfl

/-! `outByteTo` -/

@[simp] theorem outByteTo_mode (b : Byte) (s : State) :
    (outByteTo b s).mode = s.mode := rfl
@[simp] theorem outByteTo_acc (b : Byte) (s : State) :
    (outByteTo b s).acc = s.acc := rfl
@[simp] theorem outByteTo_shift (b : Byte) (s : State) :
    (outByteTo b s).shift = s.shift := rfl
@[simp] theorem outByteTo_size (b : Byte) (s : State) :
    (outByteTo b s).size = s.size := rfl
@[simp] theorem outByteTo_result (b : Byte) (s : State) :
    (outByteTo b s).result = s.result := rfl
@[simp] theorem outByteTo_done (b : Byte) (s : State) :
    (outByteTo b s).done = s.done := rfl
@[simp] theorem outByteTo_cmdErr (b : Byte) (s : State) :
    (outByteTo b s).cmdErr = s.cmdErr := rfl
@[simp] theorem outByteTo_input (b : Byte) (s : State) :
    (outByteTo b s).input = s.input := rfl
@[simp] theorem outByteTo_output (b : Byte) (s : State) :
    (outByteTo b s).output = s.output ++ [b] := rfl
@[simp] theorem outByteTo_samples (b : Byte) (s : State) :
    (outByteTo b s).samples = s.samples := rfl
@[simp] theorem outByteTo_script (b : Byte) (s : State) :
    (outByteTo b s).script = s.script := rfl
@[simp] theorem outByteTo_tick (b : Byte) (s : State) :
    (outByteTo b s).tick = s.tick := rfl

/-! `takeReset` -/

@[simp] theorem takeReset_mode (s : State) :
    (takeReset s).mode = .idle := rfl
@[simp] theorem takeReset_acc (s : State) :
    (takeReset s).acc = Config.freeAcc s.tick := rfl
@[simp] theorem takeReset_shift (s : State) :
    (takeReset s).shift = Config.freeShift s.tick := rfl
@[simp] theorem takeReset_size (s : State) :
    (takeReset s).size = Config.freeSize s.tick := rfl
@[simp] theorem takeReset_result (s : State) :
    (takeReset s).result = Config.freeResult s.tick := rfl
@[simp] theorem takeReset_done (s : State) :
    (takeReset s).done = false := rfl
@[simp] theorem takeReset_cmdErr (s : State) :
    (takeReset s).cmdErr = false := rfl
@[simp] theorem takeReset_input (s : State) :
    (takeReset s).input = s.input := rfl
@[simp] theorem takeReset_output (s : State) :
    (takeReset s).output = s.output := rfl
@[simp] theorem takeReset_samples (s : State) :
    (takeReset s).samples = s.samples := rfl
@[simp] theorem takeReset_script (s : State) :
    (takeReset s).script = s.script := rfl
@[simp] theorem takeReset_tick (s : State) :
    (takeReset s).tick = s.tick := rfl

/-! `takeEvent` -/

@[simp] theorem takeEvent_mode (rest : List HostEvent) (s : State) :
    (takeEvent rest s).mode = s.mode := rfl
@[simp] theorem takeEvent_acc (rest : List HostEvent) (s : State) :
    (takeEvent rest s).acc = s.acc := rfl
@[simp] theorem takeEvent_shift (rest : List HostEvent) (s : State) :
    (takeEvent rest s).shift = s.shift := rfl
@[simp] theorem takeEvent_size (rest : List HostEvent) (s : State) :
    (takeEvent rest s).size = s.size := rfl
@[simp] theorem takeEvent_result (rest : List HostEvent) (s : State) :
    (takeEvent rest s).result = s.result := rfl
@[simp] theorem takeEvent_done (rest : List HostEvent) (s : State) :
    (takeEvent rest s).done = s.done := rfl
@[simp] theorem takeEvent_cmdErr (rest : List HostEvent) (s : State) :
    (takeEvent rest s).cmdErr = s.cmdErr := rfl
@[simp] theorem takeEvent_input (rest : List HostEvent) (s : State) :
    (takeEvent rest s).input = s.input := rfl
@[simp] theorem takeEvent_output (rest : List HostEvent) (s : State) :
    (takeEvent rest s).output = s.output := rfl
@[simp] theorem takeEvent_samples (rest : List HostEvent) (s : State) :
    (takeEvent rest s).samples = s.samples := rfl
@[simp] theorem takeEvent_script (rest : List HostEvent) (s : State) :
    (takeEvent rest s).script = rest := rfl
@[simp] theorem takeEvent_tick (rest : List HostEvent) (s : State) :
    (takeEvent rest s).tick = s.tick + 1 := rfl

/-! `noteSamples` -/

@[simp] theorem noteSamples_mode (xs : List Sample) (s : State) :
    (noteSamples xs s).mode = s.mode := rfl
@[simp] theorem noteSamples_acc (xs : List Sample) (s : State) :
    (noteSamples xs s).acc = s.acc := rfl
@[simp] theorem noteSamples_shift (xs : List Sample) (s : State) :
    (noteSamples xs s).shift = s.shift := rfl
@[simp] theorem noteSamples_size (xs : List Sample) (s : State) :
    (noteSamples xs s).size = s.size := rfl
@[simp] theorem noteSamples_result (xs : List Sample) (s : State) :
    (noteSamples xs s).result = s.result := rfl
@[simp] theorem noteSamples_done (xs : List Sample) (s : State) :
    (noteSamples xs s).done = s.done := rfl
@[simp] theorem noteSamples_cmdErr (xs : List Sample) (s : State) :
    (noteSamples xs s).cmdErr = s.cmdErr := rfl
@[simp] theorem noteSamples_input (xs : List Sample) (s : State) :
    (noteSamples xs s).input = s.input := rfl
@[simp] theorem noteSamples_output (xs : List Sample) (s : State) :
    (noteSamples xs s).output = s.output := rfl
@[simp] theorem noteSamples_samples (xs : List Sample) (s : State) :
    (noteSamples xs s).samples = s.samples ++ xs := rfl
@[simp] theorem noteSamples_script (xs : List Sample) (s : State) :
    (noteSamples xs s).script = s.script := rfl
@[simp] theorem noteSamples_tick (xs : List Sample) (s : State) :
    (noteSamples xs s).tick = s.tick := rfl

/-! `keepInput` -/

@[simp] theorem keepInput_mode (rest : List Byte) (s : State) :
    (keepInput rest s).mode = s.mode := rfl
@[simp] theorem keepInput_acc (rest : List Byte) (s : State) :
    (keepInput rest s).acc = s.acc := rfl
@[simp] theorem keepInput_shift (rest : List Byte) (s : State) :
    (keepInput rest s).shift = s.shift := rfl
@[simp] theorem keepInput_size (rest : List Byte) (s : State) :
    (keepInput rest s).size = s.size := rfl
@[simp] theorem keepInput_result (rest : List Byte) (s : State) :
    (keepInput rest s).result = s.result := rfl
@[simp] theorem keepInput_done (rest : List Byte) (s : State) :
    (keepInput rest s).done = s.done := rfl
@[simp] theorem keepInput_cmdErr (rest : List Byte) (s : State) :
    (keepInput rest s).cmdErr = s.cmdErr := rfl
@[simp] theorem keepInput_input (rest : List Byte) (s : State) :
    (keepInput rest s).input = rest := rfl
@[simp] theorem keepInput_output (rest : List Byte) (s : State) :
    (keepInput rest s).output = s.output := rfl
@[simp] theorem keepInput_samples (rest : List Byte) (s : State) :
    (keepInput rest s).samples = s.samples := rfl
@[simp] theorem keepInput_script (rest : List Byte) (s : State) :
    (keepInput rest s).script = s.script := rfl
@[simp] theorem keepInput_tick (rest : List Byte) (s : State) :
    (keepInput rest s).tick = s.tick := rfl

end Sys2Proof.Machine
end

