-- ==== Sys2Proof/Laws/Step.lean ====
section
/-! SUPPORT. What one step can do, said once: the meanings' inversion, the transfer's, and the step's. -/

namespace Sys2Proof.Machine

/-! ### The meanings -/

/-- Every command word completes, from every state (spec/60_exceptions.md R130, R131; 70_reset_and_hazards.md R152). -/
theorem exec_cases {i : Instr} {s t : State} (h : exec i s = .next t) :
    (∃ v, i = .len7 v ∧ t = complete (BitVec.ofNat 64 (len7 v)) s) ∨ (∃ v, i = .dec7 v ∧ t = beginDecode s) ∨
    (∃ v, i = .enc7 v ∧ t = beginEncode v s) ∨ (∃ v, i = .reserved v ∧ t = raiseCmdError s) := by
  cases i with
  | len7 v => exact .inl ⟨v, rfl, (Host.Outcome.next.inj h).symm⟩
  | dec7 v => exact .inr (.inl ⟨v, rfl, (Host.Outcome.next.inj h).symm⟩)
  | enc7 v => exact .inr (.inr (.inl ⟨v, rfl, (Host.Outcome.next.inj h).symm⟩))
  | reserved v => exact .inr (.inr (.inr ⟨v, rfl, (Host.Outcome.next.inj h).symm⟩))

theorem exec_completes (i : Instr) (s : State) : ∃ t, exec i s = .next t := by
  cases i <;> exact ⟨_, rfl⟩

/-- The decoder's four readings, by the `OP` field (spec/30_encoding.md R67, R69). -/
theorem decode_cases (w : CmdWord) :
    (opField w = 0b00#2 ∧ decode w = .len7 (valueField w)) ∨ (opField w = 0b01#2 ∧ decode w = .dec7 (valueField w)) ∨
    (opField w = 0b10#2 ∧ decode w = .enc7 (valueField w)) ∨ (opField w = 0b11#2 ∧ decode w = .reserved (valueField w)) := by
  have h : opField w = 0b00#2 ∨ opField w = 0b01#2 ∨ opField w = 0b10#2 ∨ opField w = 0b11#2 := by
    generalize opField w = op
    revert op; decide
  obtain h | h | h | h := h <;> simp [decode, h]

/-! ### The byte transfers -/

/-- A byte-in step's two ends (spec/41_decode.md R91, R92). -/
theorem receiveByte_cases (b : Byte) (s : State) :
    (decodeContinues b (nextShift s) = true ∧ receiveByte b s = receiveGroup b s) ∨
    (decodeContinues b (nextShift s) = false ∧
      receiveByte b s = complete (receiveGroup b s).acc (receiveGroup b s)) := by
  cases h : decodeContinues b (nextShift s) <;> simp [receiveByte, h]

/-- A byte-out step's two ends (spec/42_encode.md R112, R113). -/
theorem sendByte_cases (s : State) :
    (encodeContinues (remaining s.acc) (nextSize s) = true ∧
      sendByte s = sendGroup (outByteTo (presentedByte s.acc) s)) ∨
    (encodeContinues (remaining s.acc) (nextSize s) = false ∧
      sendByte s = complete (BitVec.ofNat 64 (nextSize s)) (sendGroup (outByteTo (presentedByte s.acc) s))) := by
  cases h : encodeContinues (remaining s.acc) (nextSize s) <;> simp [sendByte, h]

/-- What a byte-in step leaves, whichever way it ends, and the accumulator it writes (spec/41_decode.md R91). -/
theorem receiveByte_frame (b : Byte) (s : State) :
    (receiveByte b s).acc = accumulate s.acc s.shift.toNat b ∧ (receiveByte b s).size = s.size ∧
    (receiveByte b s).cmdErr = s.cmdErr ∧ (receiveByte b s).input = s.input ∧ (receiveByte b s).output = s.output ∧
    (receiveByte b s).samples = s.samples ∧ (receiveByte b s).script = s.script ∧ (receiveByte b s).tick = s.tick := by
  obtain ⟨-, h⟩ | ⟨-, h⟩ := receiveByte_cases b s <;> rw [h] <;> simp

/-- What a byte-out step leaves, whichever way it ends, the remainder and the byte it sends (spec/42_encode.md R112). -/
theorem sendByte_frame (s : State) :
    (sendByte s).acc = remaining s.acc ∧ (sendByte s).shift = s.shift ∧ (sendByte s).cmdErr = s.cmdErr ∧
    (sendByte s).input = s.input ∧ (sendByte s).output = s.output ++ [presentedByte s.acc] ∧
    (sendByte s).samples = s.samples ∧ (sendByte s).script = s.script ∧ (sendByte s).tick = s.tick := by
  obtain ⟨-, h⟩ | ⟨-, h⟩ := sendByte_cases s <;> rw [h] <;> simp

/-- What a transfer can do (spec/20_memory.md R54). -/
theorem transfer_cases {supply take : Bool} {s t : State} (h : transfer supply take s = .next t) :
    (supply = true ∧ s.mode = .dec ∧ ∃ b rest, s.input = b :: rest ∧ t = receiveByte b (keepInput rest s)) ∨
    (take = true ∧ s.mode = .enc ∧ t = sendByte s) ∨
    (t = s ∧ (supply && s.mode == .dec && !s.input.isEmpty) = false ∧ (take && s.mode == .enc) = false) := by
  unfold transfer at h
  cases hm : s.mode <;> simp only [hm] at h
  · exact .inr (.inr ⟨(Host.Outcome.next.inj h).symm, by simp, by simp⟩)
  · cases supply <;> simp only [if_true, Bool.false_eq_true, if_false] at h
    · exact .inr (.inr ⟨(Host.Outcome.next.inj h).symm, by simp, by simp⟩)
    · cases hi : s.input with
      | nil =>
        simp only [execByteIn, inByte, hi] at h
        exact .inr (.inr ⟨(Host.Outcome.next.inj h).symm, by simp, by simp⟩)
      | cons b rest =>
        simp only [execByteIn, inByte, hi] at h
        exact .inl ⟨rfl, rfl, b, rest, rfl, (Host.Outcome.next.inj h).symm⟩
  · cases take <;> simp only [if_true, Bool.false_eq_true, if_false] at h
    · exact .inr (.inr ⟨(Host.Outcome.next.inj h).symm, by simp, by simp⟩)
    · exact .inr (.inl ⟨rfl, rfl, (Host.Outcome.next.inj h).symm⟩)

/-- A byte transfer never stops the machine (spec/60_exceptions.md R130). -/
theorem transfer_completes (supply take : Bool) (s : State) : ∃ t, transfer supply take s = .next t := by
  unfold transfer execByteIn execByteOut
  cases s.mode <;> cases supply <;> cases take <;> cases inByte s <;> exact ⟨_, rfl⟩

/-- Nothing presented on the block's inputs stops the machine (spec/60_exceptions.md R130, R131). -/
theorem takePresented_completes (p : Presented) (s : State) : ∃ t, takePresented p s = .next t := by
  unfold takePresented
  split
  · exact ⟨_, rfl⟩
  · split
    · exact exec_completes _ _
    · exact transfer_completes _ _ _

/-- A read gives its words, or is the fault of reading `RESULT` early (spec/70_reset_and_hazards.md R153). -/
theorem readWords_cases (sel : ReadSel) (s : State) :
    (∃ xs, (sel = .status ∨ s.done = true) ∧ readWords sel s = .ok xs) ∨
    (sel ≠ .status ∧ s.done = false ∧ readWords sel s = .error .resultUnspecified) := by
  cases sel <;> cases h : s.done <;> simp [readWords, readResult, h, Except.map]

/-! ### The step -/

theorem step_nil {s : State} (h : s.script = []) : step s = .next s := by
  simp [step, hostStep, h]

theorem step_cons {s : State} {e : HostEvent} {rest : List HostEvent} (h : s.script = e :: rest) :
    step s = takeHostEvent e (takeEvent rest s) := by
  simp [step, hostStep, h]

theorem step_command {s : State} {w : CmdWord} (h : commandTaken s = some w) :
    step s = exec (decode w) (takeEvent s.script.tail s) := by
  unfold commandTaken at h
  split at h <;> simp_all [step, hostStep, takeHostEvent, takePresented]

theorem step_reset {s : State} (h : resetPresented s = true) :
    step s = .next (takeReset (takeEvent s.script.tail s)) := by
  unfold resetPresented at h
  split at h <;> simp_all [step, hostStep, takeHostEvent, takePresented]

theorem step_byteIn {s : State} {b : Byte} {rest : List Byte} (h : byteInTaken s = true) (hi : s.input = b :: rest) :
    step s = .next (receiveByte b (keepInput rest (takeEvent s.script.tail s))) := by
  unfold byteInTaken at h
  split at h <;>
    simp_all [step, hostStep, takeHostEvent, takePresented, transfer, execByteIn, inByte]

theorem step_byteOut {s : State} (h : byteOutTaken s = true) :
    step s = .next (sendByte (takeEvent s.script.tail s)) := by
  unfold byteOutTaken at h
  split at h <;> simp_all [step, hostStep, takeHostEvent, takePresented, transfer, execByteOut]

/-- At most one of the events a step can take is taken (spec/60_exceptions.md R135). -/
theorem taken_exclusive (s : State) :
    (resetPresented s = true → commandTaken s = none ∧ byteInTaken s = false ∧ byteOutTaken s = false) ∧
    (∀ w, commandTaken s = some w → resetPresented s = false ∧ byteInTaken s = false ∧ byteOutTaken s = false) ∧
    (byteInTaken s = true → resetPresented s = false ∧ commandTaken s = none ∧ byteOutTaken s = false) ∧
    (byteOutTaken s = true → resetPresented s = false ∧ commandTaken s = none ∧ byteInTaken s = false) := by
  unfold resetPresented commandTaken byteInTaken byteOutTaken
  split
  · rename_i p _ _
    cases hr : p.reset <;> cases hc : p.command <;> cases hm : s.mode <;> simp_all
  all_goals simp

/-- What a step that answers a next state has done (spec/00_scope.md R12): waited, reset, taken a command, taken a byte,
given a byte, or only let the host read or try in vain. -/
theorem step_cases {s t : State} (h : step s = .next t) :
    (s.script = [] ∧ t = s) ∨
    (resetPresented s = true ∧ t = takeReset (takeEvent s.script.tail s)) ∨
    (∃ w, commandTaken s = some w ∧ exec (decode w) (takeEvent s.script.tail s) = .next t) ∨
    (byteInTaken s = true ∧ s.mode = .dec ∧ ∃ b rest, s.input = b :: rest ∧
      t = receiveByte b (keepInput rest (takeEvent s.script.tail s))) ∨
    (byteOutTaken s = true ∧ s.mode = .enc ∧ t = sendByte (takeEvent s.script.tail s)) ∨
    (resetPresented s = false ∧ commandTaken s = none ∧ byteInTaken s = false ∧ byteOutTaken s = false ∧
      ∃ xs, t = noteSamples xs (takeEvent s.script.tail s)) := by
  cases hs : s.script with
  | nil => exact .inl ⟨rfl, (Host.Outcome.next.inj ((step_nil hs).symm.trans h)).symm⟩
  | cons e rest =>
    rw [step_cons hs] at h
    cases e with
    | read sel =>
      refine .inr (.inr (.inr (.inr (.inr ?_))))
      simp only [takeHostEvent, execRead] at h
      split at h
      · rename_i xs _
        exact ⟨by simp [resetPresented, hs], by simp [commandTaken, hs], by simp [byteInTaken, hs],
          by simp [byteOutTaken, hs], xs, (Host.Outcome.next.inj h).symm⟩
      · cases h
    | present p =>
      simp only [takeHostEvent, takePresented] at h
      split at h
      · rename_i hr
        exact .inr (.inl ⟨by simp [resetPresented, hs, hr], (Host.Outcome.next.inj h).symm⟩)
      · rename_i hr
        split at h
        · rename_i w hc
          exact .inr (.inr (.inl ⟨w, by simp [commandTaken, hs, hr, hc], h⟩))
        · rename_i hc
          obtain ⟨hp, hm, b, r, hi, rfl⟩ | ⟨hk, hm, rfl⟩ | ⟨rfl, hin, hout⟩ := transfer_cases h
          · simp only [takeEvent_mode, takeEvent_input] at hm hi
            exact .inr (.inr (.inr (.inl ⟨by simp [byteInTaken, hs, hr, hc, hp, hm, hi], hm, b, r, hi, rfl⟩)))
          · simp only [takeEvent_mode] at hm
            exact .inr (.inr (.inr (.inr (.inl ⟨by simp [byteOutTaken, hs, hr, hc, hk, hm], hm, rfl⟩))))
          · refine .inr (.inr (.inr (.inr (.inr ⟨by simp [resetPresented, hs, hr], by simp [commandTaken, hs, hr, hc],
              ?_, ?_, [], by simp [noteSamples, takeEvent]⟩))))
            · simpa [byteInTaken, hs, hr, hc] using hin
            · simpa [byteOutTaken, hs, hr, hc] using hout

end Sys2Proof.Machine
end

