-- ==== Sys2Proof/Laws/Run.lean ====
section
/-! SUPPORT. Runs of several steps, one step or one part at a time. -/

namespace Sys2Proof.Machine

/-! ### On any machine of the host's interface -/

theorem coreRun_succ (M : Host.Core) {s t : M.State} (h : M.step s = .next t) (k : Nat) :
    M.run (k + 1) s = M.run k t := by
  rw [Host.Core.run, h]

theorem coreRun_succ_inv (M : Host.Core) {s t : M.State} {k : Nat} (h : M.run (k + 1) s = .next t) :
    ∃ u, M.step s = .next u ∧ M.run k u = .next t := by
  rw [Host.Core.run] at h
  split at h
  · rename_i u hu
    exact ⟨u, hu, h⟩
  · cases h
  · cases h

theorem coreRun_add (M : Host.Core) {s t : M.State} {j : Nat} (k : Nat) (h : M.run j s = .next t) :
    M.run (j + k) s = M.run k t := by
  induction j generalizing s with
  | zero => rw [Host.Core.run] at h; cases h; rw [Nat.zero_add]
  | succ j ih =>
    obtain ⟨u, hu, hr⟩ := coreRun_succ_inv M h
    rw [Nat.add_right_comm, coreRun_succ M hu, ih hr]

/-! ### On this machine -/

theorem run_zero (s : State) : Host.Core.run core 0 s = .next s := rfl

theorem run_succ {s t : State} (h : step s = .next t) (k : Nat) :
    Host.Core.run core (k + 1) s = Host.Core.run core k t := coreRun_succ core h k

/-- A run that answers a next state has taken its first step to one. -/
theorem run_succ_inv {s t : State} {k : Nat} (h : Host.Core.run core (k + 1) s = .next t) :
    ∃ u : State, step s = .next u ∧ Host.Core.run core k u = .next t := coreRun_succ_inv core h

theorem run_add {s t : State} {j : Nat} (k : Nat) (h : Host.Core.run core j s = .next t) :
    Host.Core.run core (j + k) s = Host.Core.run core k t := coreRun_add core k h

end Sys2Proof.Machine
end

