-- ==== Sys2Proof/Laws/Codec.lean ====
section
/-! SUPPORT. A decode or an encode in flight, run to its end by the host's transfers: one induction each, from any point of
the operation. -/

namespace Sys2Proof.Machine

/-! ### One transfer of a script -/

theorem supply_taken {s : State} {tail : List HostEvent} {b : Byte} {rest : List Byte} (hm : s.mode = .dec)
    (hi : s.input = b :: rest) (hs : s.script = supplyEvent :: tail) :
    step s = .next (receiveByte b (keepInput rest (takeEvent tail s))) := by
  have h : byteInTaken s = true := by simp [byteInTaken, hs, supplyEvent, hm, hi]
  simpa [hs] using step_byteIn h hi

theorem take_taken {s : State} {tail : List HostEvent} (hm : s.mode = .enc) (hs : s.script = takeByteEvent :: tail) :
    step s = .next (sendByte (takeEvent tail s)) := by
  have h : byteOutTaken s = true := by simp [byteOutTaken, hs, takeByteEvent, hm]
  simpa [hs] using step_byteOut h

theorem take_idle {s : State} {tail : List HostEvent} (hm : s.mode = .idle) (hs : s.script = takeByteEvent :: tail) :
    step s = .next (takeEvent tail s) := by
  simp [step, hostStep, hs, takeHostEvent, takePresented, takeByteEvent, transfer, hm]

theorem command_taken {s : State} {tail : List HostEvent} {w : CmdWord} (hs : s.script = commandEvent w :: tail) :
    step s = exec (decode w) (takeEvent tail s) := by
  simpa [hs] using step_command (s := s) (w := w) (by simp [commandTaken, hs, commandEvent])

/-! ### A decode in flight -/

theorem group_room (b : Byte) (p : Nat) : (b.toNat % 128) * p + p ≤ 128 * p := by
  have h := Nat.mul_le_mul_right p (Nat.mod_lt b.toNat (by decide : 128 > 0))
  rwa [Nat.succ_mul] at h

/-- A decode that has read `k` bytes, over a stream that holds the rest of an integer (spec/41_decode.md R91, R92, R98). -/
theorem decode_in_flight : ∀ (c k : Nat) (s : State) (tail : List HostEvent), k + c = 5 → s.mode = .dec →
    s.shift.toNat = 7 * k → s.acc.toNat < 2 ^ (7 * k) → holdsInteger (c + 1) s.input = true →
    s.script = List.replicate (integerBytes (c + 1) s.input).length supplyEvent ++ tail →
    ∃ t : State, Host.Core.run core (integerBytes (c + 1) s.input).length s = .next t ∧ t.mode = .idle ∧ t.done = true ∧
      t.result.toNat = s.acc.toNat + wireSum k (integerBytes (c + 1) s.input) ∧
      s.input = integerBytes (c + 1) s.input ++ t.input ∧ t.output = s.output ∧ t.cmdErr = s.cmdErr ∧ t.script = tail := by
  intro c
  induction c with
  | zero =>
    intro k s tail hk hm hsh hacc hold hs
    obtain ⟨b, rest, hi⟩ : ∃ b rest, s.input = b :: rest := by
      cases hi : s.input with
      | nil => simp [hi, holdsInteger] at hold
      | cons b rest => exact ⟨b, rest, rfl⟩
    have hb : integerBytes (0 + 1) s.input = [b] := by
      rw [hi]; simp [integerBytes]
    rw [hb] at hs ⊢
    simp only [List.length_singleton, List.replicate_one, List.singleton_append] at hs
    have hst := supply_taken hm hi hs
    rw [List.length_singleton, run_succ hst, run_zero]
    have hstop : decodeContinues b (nextShift (keepInput rest (takeEvent tail s))) = false := by
      simp [decodeContinues, nextShift, Config.decShiftCap, Config.groupBits, hsh]; omega
    obtain ⟨hc, -⟩ | ⟨-, he⟩ := receiveByte_cases b (keepInput rest (takeEvent tail s))
    · rw [hstop] at hc; cases hc
    · refine ⟨_, rfl, ?_⟩
      rw [he]
      have hroom := group_room b (2 ^ (7 * k))
      have hsum := accumulate_toNat (w := 64) s.acc s.acc.toNat (7 * k) b hacc (Nat.mod_eq_of_lt s.acc.isLt).symm
      obtain rfl : k = 5 := by omega
      rw [Nat.mod_eq_of_lt (by omega)] at hsum
      simp [hsh, hsum, wireSum, hi]
  | succ c ih =>
    intro k s tail hk hm hsh hacc hold hs
    obtain ⟨b, rest, hi⟩ : ∃ b rest, s.input = b :: rest := by
      cases hi : s.input with
      | nil => simp [hi, holdsInteger] at hold
      | cons b rest => exact ⟨b, rest, rfl⟩
    have hroom := group_room b (2 ^ (7 * k))
    have hbig : 2 ^ (7 * (k + 1)) = 128 * 2 ^ (7 * k) := by
      rw [show 7 * (k + 1) = 7 * k + 7 by omega, pow_add]; omega
    have hcap : 2 ^ (7 * (k + 1)) ≤ 2 ^ 64 := Nat.pow_le_pow_right (by decide) (by omega)
    have hsum := accumulate_toNat (w := 64) s.acc s.acc.toNat (7 * k) b hacc (Nat.mod_eq_of_lt s.acc.isLt).symm
    rw [Nat.mod_eq_of_lt (by omega)] at hsum
    by_cases hf : b.toNat < 128
    · have hb : integerBytes (c + 1 + 1) s.input = [b] := by
        rw [hi]; simp [integerBytes, hf]
      rw [hb] at hs ⊢
      simp only [List.length_singleton, List.replicate_one, List.singleton_append] at hs
      have hst := supply_taken hm hi hs
      rw [List.length_singleton, run_succ hst, run_zero]
      have hstop : decodeContinues b (nextShift (keepInput rest (takeEvent tail s))) = false := by
        simp [decodeContinues, contFlag_eq, hf]
      obtain ⟨hc, -⟩ | ⟨-, he⟩ := receiveByte_cases b (keepInput rest (takeEvent tail s))
      · rw [hstop] at hc; cases hc
      · refine ⟨_, rfl, ?_⟩
        rw [he]
        simp [hsh, hsum, wireSum, hi]
    · have hb : integerBytes (c + 1 + 1) s.input = b :: integerBytes (c + 1) rest := by
        rw [hi]; simp [integerBytes, hf]
      rw [hb] at hs ⊢
      rw [List.length_cons, List.replicate_succ, List.cons_append] at hs
      have hst := supply_taken hm hi hs
      rw [List.length_cons, run_succ hst]
      have hgo : decodeContinues b (nextShift (keepInput rest
          (takeEvent (List.replicate (integerBytes (c + 1) rest).length supplyEvent ++ tail) s))) = true := by
        simp [decodeContinues, contFlag_eq, nextShift, Config.decShiftCap, Config.groupBits, hsh]; omega
      obtain ⟨-, he⟩ | ⟨hc, -⟩ := receiveByte_cases b (keepInput rest
          (takeEvent (List.replicate (integerBytes (c + 1) rest).length supplyEvent ++ tail) s))
      · rw [he]
        obtain ⟨t, hr, hmode, hdone, hres, hin, hout, herr, hscr⟩ := ih (k + 1) (receiveGroup b (keepInput rest
            (takeEvent (List.replicate (integerBytes (c + 1) rest).length supplyEvent ++ tail) s))) tail (by omega)
          (by simp [hm]) (by simp [nextShift, hsh, Config.groupBits]; omega)
          (by simp only [receiveGroup_acc, keepInput_acc, keepInput_shift, takeEvent_acc, takeEvent_shift, hsh, hsum]; omega)
          (by simpa [hi, holdsInteger, hf] using hold) (by simp)
        simp only [receiveGroup_input, keepInput_input, receiveGroup_output, keepInput_output, takeEvent_output,
          receiveGroup_cmdErr, keepInput_cmdErr, takeEvent_cmdErr, receiveGroup_acc, keepInput_acc, keepInput_shift,
          takeEvent_acc, takeEvent_shift, hsh, hsum] at hr hres hin hout herr
        refine ⟨t, hr, hmode, hdone, ?_, ?_, hout, herr, hscr⟩
        · rw [hres, wireSum]; omega
        · rw [hi, List.cons_append, ← hin]
      · rw [hgo] at hc; cases hc

/-! ### An encode in flight -/

/-- The bytes an encode still emits, given how many it may (spec/42_encode.md R112, R113). -/
def emits : Nat → Value → List Byte
  | 0, _ => []
  | c + 1, v => presentedByte v :: if remaining v = 0#64 then [] else emits c (remaining v)

theorem emits_last {v : Value} (h : remaining v = 0#64) (c : Nat) : emits (c + 1) v = [presentedByte v] := by
  rw [emits, if_pos h]

theorem emits_more {v : Value} (h : remaining v ≠ 0#64) (c : Nat) :
    emits (c + 1) v = presentedByte v :: emits c (remaining v) := by
  rw [emits, if_neg h]

/-- Takes offered to an idle block receive nothing (spec/20_memory.md R54). -/
theorem takes_idle : ∀ (m : Nat) (s : State) (tail : List HostEvent), s.mode = .idle →
    s.script = List.replicate m takeByteEvent ++ tail →
    Host.Core.run core m s = .next { s with script := tail, tick := s.tick + m }
  | 0, s, tail, _, hs => by
    rw [run_zero]
    simp only [List.replicate_zero, List.nil_append] at hs
    rw [← hs]; rfl
  | m + 1, s, tail, hm, hs => by
    rw [List.replicate_succ, List.cons_append] at hs
    rw [run_succ (take_idle hm hs), takes_idle m _ tail (by simp [hm]) (by simp)]
    simp [takeEvent, Nat.add_assoc, Nat.add_comm 1 m]

/-- An encode that has sent all but `c + 1` of the bytes it may, and a host that takes `m` times. -/
theorem encode_in_flight : ∀ (c m : Nat) (s : State) (tail : List HostEvent), s.mode = .enc → s.size.toNat + c = 5 →
    s.script = List.replicate m takeByteEvent ++ tail →
    ∃ t : State, Host.Core.run core m s = .next t ∧ t.output = s.output ++ (emits (c + 1) s.acc).take m ∧
      t.input = s.input ∧ t.cmdErr = s.cmdErr ∧ t.script = tail ∧
      ((emits (c + 1) s.acc).length ≤ m →
        t.mode = .idle ∧ t.done = true ∧ t.result.toNat = s.size.toNat + (emits (c + 1) s.acc).length) := by
  intro c m
  induction m generalizing c with
  | zero =>
    intro s tail _ _ hs
    refine ⟨s, run_zero s, by simp, rfl, rfl, by simpa using hs, ?_⟩
    intro h; simp [emits] at h
  | succ m ih =>
    intro s tail hm hsz hs
    rw [List.replicate_succ, List.cons_append] at hs
    rw [run_succ (take_taken hm hs)]
    obtain ⟨hgo, he⟩ | ⟨hstop, he⟩ := sendByte_cases (takeEvent (List.replicate m takeByteEvent ++ tail) s)
    · have hrem : remaining s.acc ≠ 0#64 := by
        intro h; simp [encodeContinues, h] at hgo
      cases c with
      | zero => simp [encodeContinues, nextSize, Config.encSizeCap] at hgo; omega
      | succ c =>
        rw [he]
        obtain ⟨t, hr, hout, hin, herr, hscr, hend⟩ := ih c (sendGroup (outByteTo (presentedByte s.acc)
            (takeEvent (List.replicate m takeByteEvent ++ tail) s))) tail (by simp [hm])
          (by simp [nextSize]; omega) (by simp)
        have hacc : (sendGroup (outByteTo (presentedByte s.acc)
            (takeEvent (List.replicate m takeByteEvent ++ tail) s))).acc = remaining s.acc := rfl
        have hsize : (sendGroup (outByteTo (presentedByte s.acc)
            (takeEvent (List.replicate m takeByteEvent ++ tail) s))).size.toNat = s.size.toNat + 1 := by
          simp [nextSize]; omega
        rw [hacc] at hout hend
        rw [hsize] at hend
        rw [emits_more hrem, List.take_succ_cons, List.length_cons]
        refine ⟨t, hr, by simpa using hout, by simpa using hin, by simpa using herr, hscr, fun hlen => ?_⟩
        obtain ⟨h1, h2, h3⟩ := hend (by omega)
        exact ⟨h1, h2, by omega⟩
    · rw [he]
      have hone : emits (c + 1) s.acc = [presentedByte s.acc] := by
        cases c with
        | zero => by_cases h : remaining s.acc = 0#64 <;> simp [emits, h]
        | succ c =>
          have h : remaining s.acc = 0#64 := by
            by_contra h
            simp [encodeContinues, nextSize, Config.encSizeCap, h] at hstop; omega
          exact emits_last h _
      rw [takes_idle m _ tail (by simp) (by simp)]
      refine ⟨_, rfl, ?_⟩
      simp only [hone]
      refine ⟨by simp, by simp, by simp, trivial, fun _ => ⟨by simp, by simp, ?_⟩⟩
      simp [nextSize]; omega

/-! ### The emitted bytes are the encoding -/

theorem encodedByte_zero (v : Value) : encodedByte v.toNat 0 = presentedByte v := by
  rw [← BitVec.toNat_inj, presentedByte_toNat, encodedByte]
  have hd : v.toNat / 2 ^ (7 * (0 + 1)) = 0 ↔ v.toNat < 128 := by omega
  simp only [hd, BitVec.toNat_ofNat, Nat.mul_zero, pow_zero, Nat.div_one]
  split <;> omega

theorem encodedByte_succ (v : Nat) (k : Nat) : encodedByte v (k + 1) = encodedByte (v / 128) k := by
  have h : ∀ j, v / 2 ^ (7 * (j + 1)) = v / 128 / 2 ^ (7 * j) := by
    intro j
    rw [Nat.div_div_eq_div_mul, show 7 * (j + 1) = 7 + 7 * j by omega, pow_add, show 2 ^ 7 = 128 from rfl]
  rw [encodedByte, encodedByte, h, h (k + 1)]

/-- What an encode emits in at most `c` bytes, byte by byte (spec/42_encode.md R113, R114, R115). -/
theorem emits_eq : ∀ (c : Nat) (v : Value), emits c v = (List.range (min (len7 v) c)).map (encodedByte v.toNat)
  | 0, v => by simp [emits]
  | c + 1, v => by
    have hp := len7_pos v
    by_cases h : remaining v = 0#64
    · have h1 : len7 v = 1 := len7_of_small v ((remaining_eq_zero v).1 h)
      rw [emits_last h, h1, show min 1 (c + 1) = 1 by omega]
      simp [encodedByte_zero]
    · rw [emits_more h, emits_eq c (remaining v), len7_step v h,
        show min (len7 (remaining v) + 1) (c + 1) = min (len7 (remaining v)) c + 1 by omega,
        List.range_succ_eq_map, List.map_cons, encodedByte_zero, List.map_map]
      congr 1
      apply List.map_congr_left
      intro k _
      rw [Function.comp_apply, encodedByte_succ, remaining_toNat]

theorem emits_six (v : Value) : emits 6 v = encoding v := emits_eq 6 v

theorem encoding_length (v : Value) : (encoding v).length = encodedLength v := by
  simp [encoding]

end Sys2Proof.Machine
end

