-- ==== Sys2Proof/Tests/Slice0.lean ====
section
/-! SUPPORT. The model's own tests. Expected results are those of spec/95_test_vectors.md, of the rules' worked examples and of
opcode_table.json; each names its source. Then one witness for the hypotheses of each obligation that has some. -/

namespace Sys2Proof.Tests

open Sys2Proof Sys2Proof.Machine

/-! ### Well-formedness: each check refuses an ill-formed term (spec/30_encoding.md R66, R71) -/

theorem test_line_refuses_wide_len7 : HostLine.wellFormed (.len7 0x10000000000000000) = false := by decide
theorem test_line_refuses_wide_enc7 : HostLine.wellFormed (.enc7 0x10000000000000000) = false := by decide
theorem test_line_refuses_wide_byte : HostLine.wellFormed (.input 256) = false := by decide
theorem test_line_refuses_wide_word : HostLine.wellFormed (.word 0x40000000000000000) = false := by decide
theorem test_port_refuses_67_bits : decodeNumber 0x40000000000000000 = .error .tooWide := by decide
theorem test_table_word_refused : decodeTableWord 72 0x40000000000000000 = none := by decide

/-! ### The parameters (spec/00_scope.md R5, R6) -/

theorem test_value_width : Value = BitVec Config.valueWidth := rfl
theorem test_cmd_width : CmdWord = BitVec Config.cmdWidth := rfl
theorem test_cap_constants : Config.decMaxBytes = Config.decShiftCap / Config.groupBits + 1 ∧
    Config.encMaxBytes = Config.encSizeCap + 1 := by decide

/-! ### Decoding: words written out from spec/30_encoding.md R66, R67, bit by bit -/

/-- `OP = 00`, `VALUE = 7` (program P6, line 2). -/
theorem test_decode_len7 :
    decode 0b000000000000000000000000000000000000000000000000000000000000000111#66 = .len7 7#64 := by decide

/-- `OP = 01`, `VALUE = 0` (program P1, line 8). -/
theorem test_decode_dec7 :
    decode 0b010000000000000000000000000000000000000000000000000000000000000000#66 = .dec7 0#64 := by decide

/-- `OP = 10`, `VALUE = 300` (program P1, line 4). -/
theorem test_decode_enc7 :
    decode 0b100000000000000000000000000000000000000000000000000000000100101100#66 = .enc7 300#64 := by decide

/-- `OP = 11`, every bit of `VALUE` set (vector K2). -/
theorem test_decode_reserved :
    decode 0b111111111111111111111111111111111111111111111111111111111111111111#66 =
      .reserved 0xFFFFFFFFFFFFFFFF#64 := by decide

/-- `ENC7 300` is `0x2_0000_0000_0000_012C` (spec/30_encoding.md R71). -/
theorem test_encode_enc7 : encode (.enc7 300#64) = 0x2000000000000012C#66 := by decide

/-- No two rows of the table accept one word: their patterns differ under their common mask (opcode_table.json). -/
theorem test_rows_do_not_overlap :
    opcodeTable.Pairwise fun r q => r.pattern &&& (r.mask &&& q.mask) ≠ q.pattern &&& (r.mask &&& q.mask) := by decide

/-! ### Small states -/

/-- A host that presents one command word next. -/
def presenting (w : CmdWord) (s : State) : State := { s with script := [commandEvent w] }

/-- A decode that has read `0xAC`, with one byte left to supply (spec/41_decode.md R91, example). -/
def midDecode : State := { State.reset with mode := .dec, acc := 0x2C#64, shift := 7#6, input := [0x02#8], script := [supplyEvent] }

/-- A decode just accepted, with `0xAC` to supply (spec/41_decode.md R91, example). -/
def startDecode : State := { State.reset with mode := .dec, input := [0xAC#8, 0x02#8], script := [supplyEvent] }

/-- An encode of 300 just accepted (spec/42_encode.md R112, example). -/
def startEncode : State := { State.reset with mode := .enc, acc := 300#64, script := [takeByteEvent] }

/-- A decode that has read five flagged bytes (spec/95_test_vectors.md P2, line 7). -/
def lateDecode : State :=
  { State.reset with
    mode := .dec, acc := 0x7FFFFFFFF#64, shift := 35#6, input := [0xFF#8, 0x05#8], script := [supplyEvent] }

/-- An encode of 300 that has sent `0xAC` (spec/42_encode.md R112, example). -/
def midEncode : State := { State.reset with mode := .enc, acc := 2#64, size := 1#3, script := [takeByteEvent] }

/-- An encode of `2^42 + 5` that has sent five bytes (spec/95_test_vectors.md P4, line 7). -/
def lateEncode : State := { State.reset with mode := .enc, acc := 0x80#64, size := 5#3, script := [takeByteEvent] }

/-- A block whose last command left 2 in `RESULT`. -/
def finished : State := { State.reset with done := true, result := 2#64, script := [.read .both] }

/-! ### One step of each kind -/

/-- `LEN7 300` gives `RESULT = 2`, `DONE = 1`, `MODE = IDLE` (spec/40_length.md R80). -/
theorem test_len7_example : ∃ t, step (presenting 0x12C#66 State.reset) = .next t ∧
    t.result = 2#64 ∧ t.done = true ∧ t.mode = .idle := ⟨_, rfl, by decide⟩

/-- Vector K3: `LEN7 0` abandons a decode. -/
theorem test_len7_abandons : ∃ t, step (presenting 0#66 midDecode) = .next t ∧
    t.mode = .idle ∧ t.result = 1#64 ∧ t.done = true ∧ t.input = [0x02#8] := ⟨_, rfl, by decide⟩

/-- Vector K10: `DEC7` ignores `VALUE` and starts from nothing. -/
theorem test_dec7_ignores_value : ∃ t, step (presenting 0x1FFFFFFFFFFFFFFFF#66 midDecode) = .next t ∧
    t.mode = .dec ∧ t.acc = 0#64 ∧ t.shift = 0#6 ∧ t.done = false := ⟨_, rfl, by decide⟩

/-- Vector K4: `DEC7` abandons an encode; its next byte is never emitted. -/
theorem test_dec7_abandons : ∃ t, step (presenting 0x10000000000000000#66 midEncode) = .next t ∧
    t.mode = .dec ∧ t.output = [] ∧ t.size = 1#3 := ⟨_, rfl, by decide⟩

/-- Vector K5: `ENC7 5` over an encode in flight. -/
theorem test_enc7_restarts : ∃ t, step (presenting 0x20000000000000005#66 midEncode) = .next t ∧
    t.mode = .enc ∧ t.acc = 5#64 ∧ t.size = 0#3 ∧ outByte t = 0x05#8 := ⟨_, rfl, by decide⟩

/-- `ENC7 300` presents `0xAC` (spec/42_encode.md R110). -/
theorem test_enc7_example : ∃ t, step (presenting 0x2000000000000012C#66 State.reset) = .next t ∧
    outValid t = true ∧ outByte t = 0xAC#8 ∧ t.output = [] := ⟨_, rfl, by decide⟩

/-- Vector K1: the reserved word in `IDLE`. -/
theorem test_reserved_idle : ∃ t, step (presenting 0x30000000000000000#66 State.reset) = .next t ∧
    t.cmdErr = true ∧ t.mode = .idle ∧ t.done = false ∧ statusWord t = 0x08#8 := ⟨_, rfl, by decide⟩

/-- Vector K2: the reserved word during a decode, which continues. -/
theorem test_reserved_in_flight : ∃ t, step (presenting 0x3FFFFFFFFFFFFFFFF#66 midDecode) = .next t ∧
    t.cmdErr = true ∧ t.mode = .dec ∧ t.acc = 0x2C#64 ∧ t.shift = 7#6 := ⟨_, rfl, by decide⟩

/-- The second `ByteIn` of the example of spec/41_decode.md R91. -/
theorem test_byteIn_example : ∃ t, step midDecode = .next t ∧
    t.acc = 0x12C#64 ∧ t.shift = 14#6 ∧ t.result = 300#64 ∧ t.done = true ∧ t.mode = .idle := ⟨_, rfl, by decide⟩

/-- Program P2, line 8: the sixth byte ends a decode although it is flagged, and leaves the next byte. -/
theorem test_byteIn_cap : ∃ t, step lateDecode = .next t ∧
    t.result = 0x3FFFFFFFFFF#64 ∧ t.shift = 42#6 ∧ t.mode = .idle ∧ t.input = [0x05#8] := ⟨_, rfl, by decide⟩

/-- The second `ByteOut` of the example of spec/42_encode.md R112. -/
theorem test_byteOut_example : ∃ t, step midEncode = .next t ∧
    t.output = [0x02#8] ∧ t.acc = 0#64 ∧ t.size = 2#3 ∧ t.result = 2#64 ∧ t.mode = .idle := ⟨_, rfl, by decide⟩

/-- Program P4, line 8: the sixth byte is flagged and ends the encode, bits or not. -/
theorem test_byteOut_truncates : ∃ t, step lateEncode = .next t ∧
    t.output = [0x80#8] ∧ t.acc = 1#64 ∧ t.size = 6#3 ∧ t.result = 6#64 ∧ t.mode = .idle := ⟨_, rfl, by decide⟩

/-- Vector K9: reset from a faulted state in the middle of a decode. -/
theorem test_reset : ∃ t, step { midDecode with cmdErr := true, script := [resetEvent] } = .next t ∧
    t.mode = .idle ∧ t.done = false ∧ t.cmdErr = false ∧ statusWord t = 0x00#8 ∧ t.input = [0x02#8] :=
  ⟨_, rfl, by decide⟩

/-- Program P1, line 3: `RD` after `LEN7 300`. -/
theorem test_read : ∃ t, step finished = .next t ∧ t.samples = [.status 0x04#8, .result 2#64] := ⟨_, rfl, by decide⟩

/-- Vector K6: a read of `RESULT` after `DEC7` is a fault. -/
theorem test_early_read : step { midDecode with script := [.read .result] } = .fault .resultUnspecified := rfl

/-- Vector K7: a byte offered in `IDLE` is not consumed. -/
theorem test_offer_in_idle : ∃ t, step { State.reset with input := [0x42#8], script := [supplyEvent] } = .next t ∧
    t.input = [0x42#8] ∧ t.mode = .idle ∧ t.acc = 0#64 := ⟨_, rfl, by decide⟩

/-- A reset and a command presented together: the reset is taken (spec/60_exceptions.md R135). -/
theorem test_reset_before_command :
    ∃ t, step { State.reset with script := [.present { reset := true, command := some 0x3#66 }] } = .next t ∧
      t.done = false ∧ t.mode = .idle := ⟨_, rfl, by decide⟩

/-- Vector L21: `LEN7` of the smallest 10-byte value; vector L15: `LEN7` is not capped. -/
theorem test_len7_uncapped : len7 0x8000000000000000#64 = 10 ∧ len7 0x40000000000#64 = 7 := by decide

/-- Vectors DW1 and DW2, for `W = 32`: bits at or above `W` are dropped (spec/41_decode.md R93). -/
theorem test_decode_width_32 :
    accumulateAll 0 (0#32) [0xFF#8, 0xFF#8, 0xFF#8, 0xFF#8, 0xFF#8, 0xFF#8] = 0xFFFFFFFF#32 ∧
    accumulateAll 0 (0#32) [0x80#8, 0x80#8, 0x80#8, 0x80#8, 0x10#8] = 0#32 := by decide

/-- The written lines of programs P4 and P6, and a comment (spec/30_encoding.md R71). -/
theorem test_read_lines :
    readLines ["ENC7 0x40000000005 ; 2^42+5".toList, "OUT -> b0".toList, "IN 0x85".toList, "; nothing".toList,
      ".word 0x3_0000_0000_0000_0000".toList, "LEN7 300".toList, "RD".toList, "RST".toList, "DEC7".toList] =
    some [.enc7 0x40000000005, .output "b0", .input 0x85, .word 0x30000000000000000, .len7 300, .rd, .rst, .dec7] := by
  decide

theorem test_unknown_line_refused : readLines ["LEN8 3".toList] = none ∧ readLines ["LEN7 0x".toList] = none := by decide

/-- A table word is the first instruction a machine runs after reset. -/
theorem test_placed_word_runs : ∃ t, step (State.reset.withFetchWord 72 0x2000000000000012C) = .next t ∧
    t.mode = .enc ∧ t.acc = 300#64 := ⟨_, rfl, by decide⟩

/-! ### Witnesses: the hypotheses of each obligation can be met together -/

theorem witness_DecodeInvertsEncode : (Instr.enc7 0xFFFFFFFFFFFFFFFF#64).wellFormed = true := by decide

theorem witness_StepRunsDecodedCommand :
    ∃ (s : State) (p : Presented) (w : CmdWord) (rest : List HostEvent),
      s.script = .present p :: rest ∧ p.reset = false ∧ p.command = some w ∧ p.supply = true :=
  ⟨{ midDecode with script := [.present { command := some 0x12C#66, supply := true }] }, _, _, _, rfl, rfl, rfl, rfl⟩

theorem witness_PlacedTableWordRunsNext :
    decodeTableWord 72 0x3FFFFFFFFFFFFFFFF = some (.reserved 0xFFFFFFFFFFFFFFFF#64) := by decide

theorem witness_BlockWaitsForHost : { midDecode with script := [] }.script = [] ∧ midDecode.mode = .dec := by decide

/-- One witness for each clause. -/
theorem witness_SimultaneousEventsTakenInOrder :
    (∃ p : Presented, p.reset = true ∧ p.command = some 0x12C#66 ∧ p.supply = true) ∧
    (∃ p : Presented, p.reset = false ∧ p.command = some 0x12C#66 ∧ p.supply = true ∧ p.take = true) ∧
    (∃ p : Presented, p.reset = false ∧ p.command = none ∧ midDecode.mode = .dec ∧ p.supply = true ∧ p.take = true) ∧
    (∃ p : Presented, p.reset = false ∧ p.command = none ∧ midEncode.mode = .enc ∧ p.supply = true ∧ p.take = true) :=
  ⟨⟨{ reset := true, command := some 0x12C#66, supply := true }, by decide⟩,
    ⟨{ command := some 0x12C#66, supply := true, take := true }, by decide⟩,
    ⟨{ supply := true, take := true }, by decide⟩, ⟨{ supply := true, take := true }, by decide⟩⟩

theorem witness_OnlyEarlyResultReadFaults :
    step { midEncode with script := [.read .both] } = .fault .resultUnspecified := rfl

theorem witness_ResetStepFromAnyState : resetPresented { midDecode with script := [resetEvent] } = true := by decide

/-- The ends of the first range, and of the last for 64 bits. -/
theorem witness_LengthClosedForm : (0x7F#64).toNat < 2 ^ 7 ∧ 2 ^ 7 ≤ (0x80#64).toNat ∧
    2 ^ (7 * (10 - 1)) ≤ (0xFFFFFFFFFFFFFFFF#64).toNat ∧ (0xFFFFFFFFFFFFFFFF#64).toNat < 2 ^ (7 * 10) := by decide

/-- Both ends of every row. -/
theorem witness_LengthBreakpoints :
    ∀ row ∈ [(0, 2 ^ 7 - 1), (2 ^ 7, 2 ^ 14 - 1), (2 ^ 14, 2 ^ 21 - 1), (2 ^ 21, 2 ^ 28 - 1), (2 ^ 28, 2 ^ 35 - 1),
        (2 ^ 35, 2 ^ 42 - 1), (2 ^ 42, 2 ^ 49 - 1), (2 ^ 49, 2 ^ 56 - 1), (2 ^ 56, 2 ^ 63 - 1), (2 ^ 63, 2 ^ 64 - 1)],
      (BitVec.ofNat 64 row.1).toNat = row.1 ∧ (BitVec.ofNat 64 row.2).toNat = row.2 ∧ row.1 ≤ row.2 := by decide

/-- Both sides of the boundary. -/
theorem witness_LengthAgainstEncoder :
    ({ State.reset with script := encodeScript 0x3FFFFFFFFFF#64 6 [] }.script = encodeScript 0x3FFFFFFFFFF#64 6 [] ∧
      (0x3FFFFFFFFFF#64).toNat < 2 ^ 42) ∧ 2 ^ 42 ≤ (0x40000000000#64).toNat := by decide

/-- The cap's byte, a byte that ends a decode by its flag, and one that does not end it. -/
theorem witness_ByteInAddsGroup :
    (RegistersSound lateDecode ∧ byteInTaken lateDecode = true ∧ lateDecode.input = [0xFF#8, 0x05#8]) ∧
    (RegistersSound midDecode ∧ byteInTaken midDecode = true ∧ midDecode.input = [0x02#8]) ∧
    (RegistersSound startDecode ∧ byteInTaken startDecode = true ∧ startDecode.input = [0xAC#8, 0x02#8]) :=
  ⟨by decide, by decide, by decide⟩

theorem witness_GroupsAddWithoutLoss : ∃ t, RegistersSound lateDecode ∧ byteInTaken lateDecode = true ∧
    lateDecode.input = 0xFF#8 :: [0x05#8] ∧ step lateDecode = .next t := ⟨_, by decide, by decide, rfl, rfl⟩

theorem witness_DecoderDropsBitsAboveWidth : [0xFF#8, 0xFF#8, 0xFF#8, 0xFF#8, 0xFF#8, 0x7F#8].length ≤ 6 ∧ 42 ≤ 42 := by
  decide

/-- Vector D14: six flagged bytes and a seventh. -/
theorem witness_DecodeRunsToClosedForm : ∃ s : State,
    holdsInteger 6 s.input = true ∧ s.script = decodeScript 5#64 (integerBytes 6 s.input).length [] ∧
      (integerBytes 6 s.input).length = 6 :=
  ⟨{ State.reset with
      input := [0xFF#8, 0xFF#8, 0xFF#8, 0xFF#8, 0xFF#8, 0xFF#8, 0xFF#8], script := decodeScript 5#64 6 [] }, by decide⟩

theorem witness_PortOutputsFollowMode : midEncode.mode = .enc := by decide

/-- The cap's byte, a byte that ends an encode as the last, and one that does not end it. -/
theorem witness_ByteOutSendsGroup :
    (RegistersSound lateEncode ∧ byteOutTaken lateEncode = true) ∧ (RegistersSound midEncode ∧ byteOutTaken midEncode = true) ∧
    (RegistersSound startEncode ∧ byteOutTaken startEncode = true) :=
  ⟨by decide, by decide, by decide⟩

theorem witness_EncodeRunsToEncoding : ∃ s : State,
    s.script = encodeScript 0xFFFFFFFFFFFFFFFF#64 (encodedLength 0xFFFFFFFFFFFFFFFF#64) [.read .both] :=
  ⟨{ State.reset with script := encodeScript _ _ _ }, rfl⟩

theorem witness_CanonicalEncoding : ∃ s : State,
    (0x3FFFFFFFFFF#64).toNat < 2 ^ 42 ∧ s.script = encodeScript 0x3FFFFFFFFFF#64 (len7 0x3FFFFFFFFFF#64) [] :=
  ⟨{ State.reset with script := encodeScript _ _ _ }, by decide, rfl⟩

theorem witness_OversizedValueTruncated : ∃ s : State,
    2 ^ 42 ≤ (0x40000000000#64).toNat ∧ s.script = encodeScript 0x40000000000#64 6 [] :=
  ⟨{ State.reset with script := encodeScript _ _ _ }, by decide, rfl⟩

/-- The first row, the last one before the cap and the last one. -/
theorem witness_EncoderCornerCases : ∀ row ∈ [(0#64, 1), (0x3FFFFFFFFFF#64, 6), (0xFFFFFFFFFFFFFFFF#64, 6)],
    ∃ s : State, s.script = encodeScript row.1 row.2 [] :=
  fun _ _ => ⟨{ State.reset with script := encodeScript _ _ _ }, rfl⟩

/-- From two states, one of them in the middle of a decode. -/
theorem witness_EncodingDependsOnValueOnly : ∃ s₁ s₂ : State,
    s₁.script = encodeScript 300#64 3 [] ∧ s₂.script = encodeScript 300#64 3 [resetEvent] ∧ s₁.mode ≠ s₂.mode :=
  ⟨{ State.reset with script := encodeScript _ _ _ }, { midDecode with script := encodeScript _ _ _ }, rfl, rfl, by decide⟩

/-- Vector N17 and then the decode of its bytes. -/
theorem witness_RoundTripModuloCap : ∃ s s' : State,
    s.script = encodeScript 0x40000000005#64 (encodedLength 0x40000000005#64) [] ∧
    s'.input = encoding 0x40000000005#64 ++ [0x42#8] ∧ s'.script = decodeScript 0#64 (encoding 0x40000000005#64).length [] :=
  ⟨{ State.reset with script := encodeScript _ _ _ },
    { State.reset with input := encoding 0x40000000005#64 ++ [0x42#8], script := decodeScript _ _ _ }, rfl, rfl, rfl⟩

/-- A step that sets the bit, and one that clears it. -/
theorem witness_CmdErrIsSticky :
    (∃ t, step (presenting 0x30000000000000000#66 midEncode) = .next t ∧ t.cmdErr = true) ∧
    (∃ t, step { midEncode with cmdErr := true, script := [resetEvent] } = .next t ∧ t.cmdErr = false) :=
  ⟨⟨_, rfl, by decide⟩, ⟨_, rfl, by decide⟩⟩

theorem witness_FaultedForGood : ∃ t, Faulted { midEncode with cmdErr := true } ∧
    noReset { midEncode with cmdErr := true }.script = true ∧
    Host.Core.run core 2 { midEncode with cmdErr := true } = .next t := ⟨_, by decide, by decide, rfl⟩

theorem witness_StatusLayout : ∃ t, step finished = .next t ∧ resetPresented finished = false ∧ commandTaken finished = none ∧
    byteInTaken finished = false ∧ byteOutTaken finished = false := ⟨_, rfl, by decide⟩

theorem witness_ReadChangesNothing :
    (finished.script = .read .both :: [] ∧ finished.done = true) ∧
    ∃ s : State, s.script = [.read .status] ∧ s.done = false :=
  ⟨by decide, { State.reset with script := [.read .status] }, rfl, rfl⟩

theorem witness_EarlyResultReadFaults : ∃ s : State, s.script = .read .result :: [] ∧ ReadSel.result ≠ .status ∧ s.done = false :=
  ⟨{ State.reset with script := [.read .result] }, rfl, by decide, rfl⟩

/-- A byte offered in `ENC`, a take in `DEC`, and a decode whose host has no byte. -/
theorem witness_TransferNotEnabledDoesNothing :
    (midEncode.mode ≠ .dec ∧ ({ supply := true } : Presented).supply = true) ∧
    (midDecode.mode ≠ .enc ∧ ({ take := true } : Presented).take = true) ∧
    ({ midDecode with input := [] }.input = [] ∧ { midDecode with input := [] }.script = .present { supply := true } :: []) := by
  decide

theorem witness_StreamsMoveOneByteInOrder : (∃ t, step midDecode = .next t ∧ byteInTaken midDecode = true) ∧
    (∃ t, step midEncode = .next t ∧ byteOutTaken midEncode = true ∧ byteInTaken midEncode = false) :=
  ⟨⟨_, rfl, by decide⟩, ⟨_, rfl, by decide⟩⟩

theorem witness_ModeWrittenInFourPlaces : (∃ t, step midDecode = .next t ∧ t.mode ≠ midDecode.mode) ∧
    (∃ t, step (presenting 0x20000000000000005#66 State.reset) = .next t ∧ t.mode ≠ .idle) :=
  ⟨⟨_, rfl, by decide⟩, ⟨_, rfl, by decide⟩⟩

theorem witness_ResultWrittenAtCompletionOnly :
    (∃ t, step midDecode = .next t ∧ resetPresented midDecode = false ∧ t.result ≠ midDecode.result) ∧
    (∃ t, step midEncode = .next t ∧ resetPresented midEncode = false ∧ t.result ≠ midEncode.result) :=
  ⟨⟨_, rfl, by decide⟩, ⟨_, rfl, by decide⟩⟩

/-- The clauses: a reset, a command, a transfer, and none of them. -/
theorem witness_DoneWriters :
    (∃ t, step { finished with script := [resetEvent] } = .next t) ∧
    (∃ t, step (presenting 0x10000000000000000#66 finished) = .next t ∧
      commandTaken (presenting 0x10000000000000000#66 finished) = some 0x10000000000000000#66) ∧
    (∃ t, step midDecode = .next t ∧ byteInTaken midDecode = true) ∧ (∃ t, step finished = .next t) :=
  ⟨⟨_, rfl⟩, ⟨_, rfl, by decide⟩, ⟨_, rfl, by decide⟩, ⟨_, rfl⟩⟩

theorem witness_CommandAbandonsOperation_reserved : ∃ t, exec (.reserved 0#64) midDecode = .next t := ⟨_, rfl⟩

/-- A decode and an encode in flight with the same host side. -/
theorem witness_CommandAbandonsOperation : ∃ s₁ s₂ : State, s₁.mode = .dec ∧ s₂.mode = .enc ∧ (∀ v, Instr.len7 5#64 ≠ .reserved v) ∧
    s₁.cmdErr = s₂.cmdErr ∧ s₁.input = s₂.input ∧ s₁.output = s₂.output ∧ s₁.samples = s₂.samples ∧
    s₁.script = s₂.script ∧ s₁.tick = s₂.tick :=
  ⟨midDecode, { midDecode with mode := .enc, acc := 2#64, size := 1#3 }, rfl, rfl, (by intro v h; cases h),
    rfl, rfl, rfl, rfl, rfl, rfl⟩

/-- Two different states the host cannot tell apart. -/
theorem witness_IdleRegistersUnobservable : SameView midDecode { midDecode with size := 5#3, result := 9#64 } ∧
    midDecode ≠ { midDecode with size := 5#3, result := 9#64 } := by decide

theorem witness_StepKeepsRegistersSound : ∃ t, RegistersSound midDecode ∧ step midDecode = .next t := ⟨_, by decide, rfl⟩

theorem witness_OperationsEndWithinSixTransfers :
    (∃ s : State, RegistersSound s ∧ s.mode = .dec ∧ 6 ≤ s.input.length ∧ s.script = List.replicate 6 supplyEvent ++ []) ∧
    (∃ s : State, RegistersSound s ∧ s.mode = .enc ∧ s.script = List.replicate 6 takeByteEvent ++ []) :=
  ⟨⟨{ midDecode with
      acc := 0#64, shift := 0#6, input := List.replicate 6 0xFF#8, script := List.replicate 6 supplyEvent }, by decide⟩,
    ⟨{ midEncode with script := List.replicate 6 takeByteEvent }, by decide⟩⟩

/-- The largest number of each field and the first beyond it; a raw word at an end of each `OP`. -/
theorem witness_HostLinesPresentTheirWords : 0xFFFFFFFFFFFFFFFF < 2 ^ 64 ∧ (∀ b ∈ [0, 255], b < 256) ∧
    2 ^ 64 ≤ 0x10000000000000000 ∧ 256 ≤ 256 ∧ 2 ^ 66 ≤ 0x40000000000000000 ∧ 0x3FFFFFFFFFFFFFFFF < 2 ^ 66 ∧
    0xFFFFFFFFFFFFFFFF / 2 ^ 64 = 0b00 ∧ 0x10000000000000000 / 2 ^ 64 = 0b01 ∧ 0x2FFFFFFFFFFFFFFFF / 2 ^ 64 = 0b10 ∧
    0x3FFFFFFFFFFFFFFFF / 2 ^ 64 = 0b11 := by decide

theorem witness_HostLinesPresentTheirWords_noByte : (∀ b, HostLine.enc7 300 ≠ .input b) ∧
    assemble [.enc7 300] = some [commandEvent 0x2000000000000012C#66] := ⟨fun _ h => (by cases h), by decide⟩

theorem witness_BlocksShareNoState : ∃ blocks', ([midDecode, midEncode] : List State)[1]? = some midEncode ∧
    stepBlock 1 [midDecode, midEncode] = .next blocks' := ⟨_, rfl, rfl⟩

end Sys2Proof.Tests
end

section
/-! PROOFS. The scope of the model (spec/00_scope.md): several blocks, the step of a command, and the `Read` step. -/

namespace Sys2Proof.Machine

/-! ### Several blocks -/

/-- A system whose block `i` stands at `s` moves only as that block does (spec/00_scope.md R8). -/
theorem stepBlock_next_inv {i : Nat} {blocks blocks' : List State} {s : State} (hs : blocks[i]? = some s)
    (h : stepBlock i blocks = .next blocks') : ∃ t, step s = .next t ∧ blocks' = blocks.set i t := by
  simp only [stepBlock, hs] at h
  split at h
  · rename_i t ht
    exact ⟨t, ht, (Host.Outcome.next.inj h).symm⟩
  · cases h
  · cases h

/-- Settles O48: the step writes the one entry of the list, and the others stand as they were. -/
theorem blocksShareNoState : Obligations.BlocksShareNoState := by
  intro i blocks blocks' s hs h
  obtain ⟨t, ht, rfl⟩ := stepBlock_next_inv hs h
  obtain ⟨hi, -⟩ := List.getElem?_eq_some_iff.1 hs
  exact ⟨⟨t, ht, List.getElem?_set_self hi⟩, List.length_set, fun j hj => List.getElem?_set_ne hj.symm⟩

/-! ### A command -/

/-- A command word presented without a reset is the one taken, whatever transfer stands beside it
(spec/60_exceptions.md R135). -/
theorem commandTaken_of_presented {s : State} {p : Presented} {w : CmdWord} {rest : List HostEvent}
    (hs : s.script = .present p :: rest) (hr : p.reset = false) (hc : p.command = some w) :
    commandTaken s = some w := by
  simp [commandTaken, hs, hr, hc]

/-- An instruction's operand fits its field by its type (spec/30_encoding.md R68). -/
theorem wellFormed_of_type (i : Instr) : i.wellFormed = true :=
  (Laws.Encoding.of_fields i).1

/-- Settles O6: the word is taken before any transfer, and every instruction is well formed. -/
theorem stepRunsDecodedCommand : Obligations.StepRunsDecodedCommand := by
  intro s p w rest hs hr hc
  have hstep := step_command (commandTaken_of_presented hs hr hc)
  rw [hs, List.tail_cons] at hstep
  exact ⟨wellFormed_of_type _, hstep⟩

/-! ### A read -/

theorem readResult_of_done {s : State} (h : s.done = true) : readResult s = .ok s.result := by
  simp [readResult, h]

theorem readWords_status (s : State) : readWords .status s = .ok [.status (statusWord s)] := rfl

theorem readWords_result_of_done {s : State} (h : s.done = true) : readWords .result s = .ok [.result s.result] := by
  rw [readWords, readResult_of_done h]; rfl

theorem readWords_both_of_done {s : State} (h : s.done = true) :
    readWords .both s = .ok [.status (statusWord s), .result s.result] := by
  rw [readWords, readResult_of_done h]; rfl

/-- Taking the event off the script changes no word a read gives: they are words of the registers alone
(spec/10_state.md R28). -/
@[simp] theorem readWords_takeEvent (sel : ReadSel) (rest : List HostEvent) (s : State) :
    readWords sel (takeEvent rest s) = readWords sel s := by
  cases sel <;> rfl

/-- A read that gives words is a step that notes them (spec/20_memory.md R54). -/
theorem step_read {s : State} {sel : ReadSel} {rest : List HostEvent} {xs : List Sample}
    (hs : s.script = .read sel :: rest) (hx : readWords sel s = .ok xs) :
    step s = .next (noteSamples xs (takeEvent rest s)) := by
  rw [step_cons hs, takeHostEvent, execRead, readWords_takeEvent, hx]

/-- Settles O35: one case for each choice of words, each with the words it gives. -/
theorem readChangesNothing : Obligations.ReadChangesNothing := by
  intro s sel rest hs hadm
  cases sel with
  | status => exact ⟨_, step_read hs (readWords_status s), by simp⟩
  | result =>
    have hd : s.done = true := by simpa using hadm
    exact ⟨_, step_read hs (readWords_result_of_done hd), by simp⟩
  | both =>
    have hd : s.done = true := by simpa using hadm
    exact ⟨_, step_read hs (readWords_both_of_done hd), by simp⟩

end Sys2Proof.Machine
end

section
/-! PROOFS. The state of the block (spec/10_state.md): what each kind of step writes of `MODE`, `DONE`, `RESULT` and
`CMD_ERR`, the register invariant, and the registers no host can see. -/

namespace Sys2Proof.Machine

/-! ### What each kind of step writes -/

/-- A command word's four meanings, by its `OP` field (spec/30_encoding.md R67, R69). -/
theorem exec_decode_cases {w : CmdWord} {s t : State} (h : exec (decode w) s = .next t) :
    (opField w = 0b00#2 ∧ t = complete (BitVec.ofNat 64 (len7 (valueField w))) s) ∨
    (opField w = 0b01#2 ∧ t = beginDecode s) ∨ (opField w = 0b10#2 ∧ t = beginEncode (valueField w) s) ∨
    (opField w = 0b11#2 ∧ t = raiseCmdError s) := by
  obtain ⟨hop, hw⟩ | ⟨hop, hw⟩ | ⟨hop, hw⟩ | ⟨hop, hw⟩ := decode_cases w <;> rw [hw] at h
  · exact .inl ⟨hop, (Host.Outcome.next.inj h).symm⟩
  · exact .inr (.inl ⟨hop, (Host.Outcome.next.inj h).symm⟩)
  · exact .inr (.inr (.inl ⟨hop, (Host.Outcome.next.inj h).symm⟩))
  · exact .inr (.inr (.inr ⟨hop, (Host.Outcome.next.inj h).symm⟩))

/-- A byte in goes on with the decode, or is a completion with the accumulator (spec/41_decode.md R91). -/
theorem receiveByte_goes_on_or_completes (b : Byte) (s : State) :
    ((receiveByte b s).mode = s.mode ∧ (receiveByte b s).done = s.done ∧ (receiveByte b s).result = s.result) ∨
    ((receiveByte b s).mode = .idle ∧ (receiveByte b s).done = true ∧
      (receiveByte b s).result = (receiveByte b s).acc) := by
  obtain ⟨-, h⟩ | ⟨-, h⟩ := receiveByte_cases b s <;> rw [h]
  · exact .inl ⟨rfl, rfl, rfl⟩
  · exact .inr ⟨rfl, rfl, rfl⟩

/-- A byte out goes on with the encode, or is a completion with the number of bytes (spec/42_encode.md R112). -/
theorem sendByte_goes_on_or_completes (s : State) :
    ((sendByte s).mode = s.mode ∧ (sendByte s).done = s.done ∧ (sendByte s).result = s.result) ∨
    ((sendByte s).mode = .idle ∧ (sendByte s).done = true ∧ (sendByte s).result.toNat = s.size.toNat + 1) := by
  obtain ⟨-, h⟩ | ⟨-, h⟩ := sendByte_cases s <;> rw [h]
  · exact .inl ⟨rfl, rfl, rfl⟩
  · refine .inr ⟨rfl, rfl, ?_⟩
    rw [complete_result, BitVec.toNat_ofNat, nextSize]
    omega

/-- A block that is held takes nothing. -/
theorem nothing_taken_of_script_nil {s : State} (h : s.script = []) :
    resetPresented s = false ∧ commandTaken s = none ∧ byteInTaken s = false ∧ byteOutTaken s = false := by
  simp [resetPresented, commandTaken, byteInTaken, byteOutTaken, h]

/-- A step writes the registers and the streams by a reset, a command, a byte in or a byte out, and leaves them all
otherwise (spec/00_scope.md R12, 10_state.md R28). -/
theorem step_taken_cases {s t : State} (h : step s = .next t) :
    (resetPresented s = true ∧ t = takeReset (takeEvent s.script.tail s)) ∨
    (∃ w, commandTaken s = some w ∧ exec (decode w) (takeEvent s.script.tail s) = .next t) ∨
    (byteInTaken s = true ∧ s.mode = .dec ∧ ∃ b rest, t = receiveByte b (keepInput rest (takeEvent s.script.tail s))) ∨
    (byteOutTaken s = true ∧ s.mode = .enc ∧ t = sendByte (takeEvent s.script.tail s)) ∨
    ((resetPresented s = false ∧ commandTaken s = none ∧ byteInTaken s = false ∧ byteOutTaken s = false) ∧
      t.mode = s.mode ∧ t.acc = s.acc ∧ t.shift = s.shift ∧ t.size = s.size ∧ t.result = s.result ∧ t.done = s.done ∧
      t.cmdErr = s.cmdErr ∧ t.input = s.input ∧ t.output = s.output) := by
  obtain ⟨hs, rfl⟩ | hreset | hcommand | ⟨hin, hm, b, rest, -, ht⟩ | hout | ⟨hr, hc, hin, hout, xs, rfl⟩ := step_cases h
  · exact .inr (.inr (.inr (.inr ⟨nothing_taken_of_script_nil hs, by simp⟩)))
  · exact .inl hreset
  · exact .inr (.inl hcommand)
  · exact .inr (.inr (.inl ⟨hin, hm, b, rest, ht⟩))
  · exact .inr (.inr (.inr (.inl hout)))
  · exact .inr (.inr (.inr (.inr ⟨⟨hr, hc, hin, hout⟩, by simp⟩)))

/-! ### The values at reset -/

/-- Settles O11: the three registers by their values, `STATUS` and the two port outputs by computing. -/
theorem resetStateValues : Obligations.ResetStateValues :=
  ⟨rfl, rfl, rfl, by decide, rfl, rfl⟩

/-! ### The register invariant -/

/-- While `IDLE` the registers of an operation hold nothing (spec/10_state.md R22 to R24). -/
theorem registersSound_of_idle {s : State} (h : s.mode = .idle) : RegistersSound s := by
  simp [RegistersSound, h]

/-- A decode begins with no group held (spec/41_decode.md R90). -/
theorem registersSound_beginDecode (s : State) : RegistersSound (beginDecode s) := by
  simp [RegistersSound]

/-- An encode begins with the whole value held, which fits 64 bits by its type (spec/42_encode.md R110). -/
theorem registersSound_beginEncode (v : Value) (s : State) : RegistersSound (beginEncode v s) := by
  simpa [RegistersSound] using v.isLt

/-- Soundness speaks of the five registers `MODE`, `DONE`, `ACC`, `SHIFT` and `SIZE` alone. -/
theorem registersSound_congr {s t : State} (hm : t.mode = s.mode) (hd : t.done = s.done) (ha : t.acc = s.acc)
    (hsh : t.shift = s.shift) (hsz : t.size = s.size) (h : RegistersSound s) : RegistersSound t := by
  unfold RegistersSound
  rw [hm, hd, ha, hsh, hsz]
  exact h

/-- A group placed above the bits held makes at most seven bits more (spec/10_state.md R22, 41_decode.md R91). -/
theorem accumulate_lt {acc : Value} {shift : Nat} (b : Byte) (h : acc.toNat < 2 ^ shift) :
    (accumulate acc shift b).toNat < 2 ^ (shift + 7) := by
  rw [accumulate_toNat acc acc.toNat shift b h (Nat.mod_eq_of_lt acc.isLt).symm]
  refine lt_of_le_of_lt (Nat.mod_le _ _) ?_
  have hroom := group_room b (2 ^ shift)
  rw [pow_add]
  omega

/-- A decode that goes on has a shift within the cap (spec/41_decode.md R92). -/
theorem le_of_decodeContinues {b : Byte} {n : Nat} (h : decodeContinues b n = true) : n ≤ 35 := by
  obtain ⟨-, hcap⟩ := Bool.and_eq_true_iff.1 h
  exact of_decide_eq_true hcap

/-- An encode that goes on has bits left and a size within the cap (spec/42_encode.md R113). -/
theorem remains_of_encodeContinues {v : Value} {n : Nat} (h : encodeContinues v n = true) : v ≠ 0#64 ∧ n ≤ 5 := by
  obtain ⟨hrem, hcap⟩ := Bool.and_eq_true_iff.1 h
  exact ⟨by simpa using hrem, of_decide_eq_true hcap⟩

/-- A group that leaves makes seven bits fewer (spec/10_state.md R22, 42_encode.md R112). -/
theorem remaining_lt {acc : Value} {n : Nat} (h : acc.toNat < 2 ^ (n + 7)) : (remaining acc).toNat < 2 ^ n := by
  rw [pow_add] at h
  rw [remaining_toNat]
  omega

/-- A byte in keeps the registers of a decode sound (spec/10_state.md R22, R23). -/
theorem registersSound_receiveByte {b : Byte} {s : State} (hm : s.mode = .dec) (h : RegistersSound s) :
    RegistersSound (receiveByte b s) := by
  obtain ⟨hdec, -, hdone⟩ := h
  obtain ⟨hmod, -, hacc⟩ := hdec hm
  obtain ⟨hgo, he⟩ | ⟨-, he⟩ := receiveByte_cases b s <;> rw [he]
  · have hcap : s.shift.toNat + 7 ≤ 35 := le_of_decodeContinues hgo
    have hshift : (receiveGroup b s).shift.toNat = s.shift.toNat + 7 := by
      simp only [receiveGroup_shift, nextShift, Config.groupBits, BitVec.toNat_ofNat]
      omega
    refine ⟨fun _ => ⟨?_, ?_, ?_⟩, fun henc => ?_, hdone⟩
    · omega
    · omega
    · rw [hshift]; exact accumulate_lt b hacc
    · rw [receiveGroup_mode, hm] at henc; cases henc
  · exact registersSound_of_idle rfl

/-- A byte out keeps the registers of an encode sound (spec/10_state.md R22, R24). -/
theorem registersSound_sendByte {s : State} (hm : s.mode = .enc) (h : RegistersSound s) :
    RegistersSound (sendByte s) := by
  obtain ⟨-, henc, hdone⟩ := h
  obtain ⟨-, hacc, -⟩ := henc hm
  obtain ⟨hgo, he⟩ | ⟨-, he⟩ := sendByte_cases s <;> rw [he]
  · obtain ⟨hrem, hcap⟩ := remains_of_encodeContinues hgo
    rw [nextSize] at hcap
    have hsize : (sendGroup (outByteTo (presentedByte s.acc) s)).size.toNat = s.size.toNat + 1 := by
      simp only [sendGroup_size, nextSize, outByteTo_size, BitVec.toNat_ofNat]
      omega
    refine ⟨fun hdec => ?_, fun _ => ⟨?_, ?_, fun _ hzero => ?_⟩, hdone⟩
    · rw [sendGroup_mode, outByteTo_mode, hm] at hdec; cases hdec
    · omega
    · rw [hsize]
      apply remaining_lt
      rwa [outByteTo_acc, show 64 - 7 * (s.size.toNat + 1) + 7 = 64 - 7 * s.size.toNat by omega]
    · exact hrem (BitVec.eq_of_toNat_eq hzero)
  · exact registersSound_of_idle rfl

/-- Settles O44: the block is `IDLE` at reset. -/
theorem resetRegistersSound : Obligations.ResetRegistersSound :=
  registersSound_of_idle rfl

/-- Settles O45: a completion and a reset leave `IDLE`, `DEC7` and `ENC7` begin sound, and a byte transfer keeps what the
operation in flight holds. -/
theorem stepKeepsRegistersSound : Obligations.StepKeepsRegistersSound := by
  intro s t hs h
  obtain ⟨-, rfl⟩ | ⟨w, -, hx⟩ | ⟨-, hm, b, rest, rfl⟩ | ⟨-, hm, rfl⟩ | ⟨-, hm, ha, hsh, hsz, -, hd, -⟩ :=
    step_taken_cases h
  · exact registersSound_of_idle rfl
  · obtain ⟨-, rfl⟩ | ⟨-, rfl⟩ | ⟨-, rfl⟩ | ⟨-, rfl⟩ := exec_decode_cases hx
    · exact registersSound_of_idle rfl
    · exact registersSound_beginDecode _
    · exact registersSound_beginEncode _ _
    · exact registersSound_congr rfl rfl rfl rfl rfl hs
  · exact registersSound_receiveByte hm (registersSound_congr rfl rfl rfl rfl rfl hs)
  · exact registersSound_sendByte hm (registersSound_congr rfl rfl rfl rfl rfl hs)
  · exact registersSound_congr hm hd ha hsh hsz hs
/-! ### Which steps write what -/

/-- The word taken is all that says whether it is a reserved one (spec/60_exceptions.md R131). -/
theorem reservedTaken_of_command {s : State} {w : CmdWord} (h : commandTaken s = some w) :
    reservedTaken s = (opField w == 0b11#2) := by
  rw [reservedTaken, h]

theorem reservedTaken_of_no_command {s : State} (h : commandTaken s = none) : reservedTaken s = false := by
  rw [reservedTaken, h]

/-- Settles O32: a reset clears the bit, a command leaves it unless it is the reserved one, and no other step writes it. -/
theorem cmdErrIsSticky : Obligations.CmdErrIsSticky := by
  intro s t h
  obtain ⟨-, hcommand, hbyteIn, hbyteOut⟩ := taken_exclusive s
  obtain ⟨hr, rfl⟩ | ⟨w, hw, hx⟩ | ⟨hin, -, b, rest, rfl⟩ | ⟨hout, -, rfl⟩ |
    ⟨⟨hr, hc, -, -⟩, -, -, -, -, -, -, herr, -⟩ := step_taken_cases h
  · simp [hr]
  · obtain ⟨hr, -, -⟩ := hcommand w hw
    rw [reservedTaken_of_command hw]
    obtain ⟨hop, rfl⟩ | ⟨hop, rfl⟩ | ⟨hop, rfl⟩ | ⟨hop, rfl⟩ := exec_decode_cases hx <;> simp [hr, hop]
  · obtain ⟨hr, hc, -⟩ := hbyteIn hin
    obtain ⟨-, -, herr, -⟩ := receiveByte_frame b (keepInput rest (takeEvent s.script.tail s))
    simp [hr, herr, reservedTaken_of_no_command hc]
  · obtain ⟨hr, hc, -⟩ := hbyteOut hout
    obtain ⟨-, -, herr, -⟩ := sendByte_frame (takeEvent s.script.tail s)
    simp [hr, herr, reservedTaken_of_no_command hc]
  · simp [hr, herr, reservedTaken_of_no_command hc]

/-- The fields of `STATUS`, each read from its own part of the word (spec/10_state.md R28). -/
theorem statusWord_fields (s : State) :
    (statusWord s).extractLsb' 0 2 = modeBits s.mode ∧ (statusWord s).getLsbD 2 = s.done ∧
    (statusWord s).getLsbD 3 = s.cmdErr ∧ (statusWord s).extractLsb' 4 4 = 0#4 := by
  rw [statusWord]
  refine ⟨BitVec.extractLsb'_append_eq_right, ?_, ?_, ?_⟩
  · simp only [BitVec.getLsbD_append]
    simp
  · simp only [BitVec.getLsbD_append]
    simp
  · rw [BitVec.extractLsb'_append_eq_of_le (by decide), BitVec.extractLsb'_append_eq_of_le (by decide)]
    exact BitVec.extractLsb'_append_eq_left

/-- A step that takes nothing writes no register and moves no byte (spec/10_state.md R28). -/
theorem step_frame_of_nothing_taken {s t : State} (h : step s = .next t) (hr : resetPresented s = false)
    (hc : commandTaken s = none) (hin : byteInTaken s = false) (hout : byteOutTaken s = false) :
    t.mode = s.mode ∧ t.acc = s.acc ∧ t.shift = s.shift ∧ t.size = s.size ∧ t.result = s.result ∧ t.done = s.done ∧
      t.cmdErr = s.cmdErr ∧ t.input = s.input ∧ t.output = s.output := by
  obtain ⟨hr', -⟩ | ⟨w, hw, -⟩ | ⟨hin', -⟩ | ⟨hout', -⟩ | ⟨-, hframe⟩ := step_taken_cases h
  · rw [hr] at hr'; cases hr'
  · rw [hc] at hw; cases hw
  · rw [hin] at hin'; cases hin'
  · rw [hout] at hout'; cases hout'
  · exact hframe

/-- Settles O34: the fields, the word at reset by computing, and the frame of a step that takes nothing. -/
theorem statusLayout : Obligations.StatusLayout :=
  ⟨statusWord_fields, by decide, fun _ _ => step_frame_of_nothing_taken⟩

/-- Settles O39: each command word with its mode, and a byte transfer changes `MODE` where it completes. -/
theorem modeWrittenInFourPlaces : Obligations.ModeWrittenInFourPlaces := by
  refine ⟨⟨rfl, rfl, rfl, fun m => by cases m <;> decide⟩, ?_⟩
  intro s t h hne
  obtain ⟨hr, rfl⟩ | ⟨w, hw, hx⟩ | ⟨hin, hm, b, rest, rfl⟩ | ⟨hout, hm, rfl⟩ | ⟨-, hmode, -⟩ := step_taken_cases h
  · exact .inl ⟨hr, rfl⟩
  · refine .inr (.inl ⟨w, hw, ?_⟩)
    obtain ⟨hop, rfl⟩ | ⟨hop, rfl⟩ | ⟨hop, rfl⟩ | ⟨hop, rfl⟩ := exec_decode_cases hx
    · exact .inl ⟨hop, rfl⟩
    · exact .inr (.inl ⟨hop, rfl⟩)
    · exact .inr (.inr ⟨hop, rfl⟩)
    · exact absurd rfl hne
  · obtain ⟨hmode, -⟩ | ⟨hmode, -⟩ := receiveByte_goes_on_or_completes b (keepInput rest (takeEvent s.script.tail s))
    · exact absurd hmode hne
    · exact .inr (.inr (.inl ⟨hin, hm, hmode⟩))
  · obtain ⟨hmode, -⟩ | ⟨hmode, -⟩ := sendByte_goes_on_or_completes (takeEvent s.script.tail s)
    · exact absurd hmode hne
    · exact .inr (.inr (.inr ⟨hout, hm, hmode⟩))
  · exact absurd hmode hne

/-- Settles O40: of the commands `LEN7` alone writes `RESULT`, and a byte transfer writes it where it completes. -/
theorem resultWrittenAtCompletionOnly : Obligations.ResultWrittenAtCompletionOnly := by
  intro s t h hnr hne
  obtain ⟨hr, -⟩ | ⟨w, hw, hx⟩ | ⟨hin, -, b, rest, rfl⟩ | ⟨hout, -, rfl⟩ | ⟨-, -, -, -, -, hresult, -⟩ :=
    step_taken_cases h
  · rw [hnr] at hr; cases hr
  · obtain ⟨hop, rfl⟩ | ⟨-, rfl⟩ | ⟨-, rfl⟩ | ⟨-, rfl⟩ := exec_decode_cases hx
    · exact ⟨rfl, rfl, .inl ⟨w, hw, hop, rfl⟩⟩
    all_goals exact absurd rfl hne
  · obtain ⟨-, -, hresult⟩ | ⟨hmode, hdone, hresult⟩ :=
      receiveByte_goes_on_or_completes b (keepInput rest (takeEvent s.script.tail s))
    · exact absurd hresult hne
    · exact ⟨hdone, hmode, .inr (.inl ⟨hin, hresult⟩)⟩
  · obtain ⟨-, -, hresult⟩ | ⟨hmode, hdone, hresult⟩ := sendByte_goes_on_or_completes (takeEvent s.script.tail s)
    · exact absurd hresult hne
    · exact ⟨hdone, hmode, .inr (.inr ⟨hout, hresult⟩)⟩
  · exact absurd hresult hne

/-- A byte in sets `DONE` exactly where it ends the decode (spec/10_state.md R26, 41_decode.md R91). -/
theorem receiveByte_done (b : Byte) {s : State} (hm : s.mode = .dec) :
    (receiveByte b s).done = (s.done || (receiveByte b s).mode == .idle) := by
  obtain ⟨hmode, hdone, -⟩ | ⟨hmode, hdone, -⟩ := receiveByte_goes_on_or_completes b s <;> simp [hmode, hdone, hm]

/-- A byte out sets `DONE` exactly where it ends the encode (spec/10_state.md R26, 42_encode.md R112). -/
theorem sendByte_done {s : State} (hm : s.mode = .enc) :
    (sendByte s).done = (s.done || (sendByte s).mode == .idle) := by
  obtain ⟨hmode, hdone, -⟩ | ⟨hmode, hdone, -⟩ := sendByte_goes_on_or_completes s <;> simp [hmode, hdone, hm]

/-- What a command word writes of `DONE`, by its `OP` field (spec/10_state.md R26). -/
theorem exec_decode_done {w : CmdWord} {s t : State} (h : exec (decode w) s = .next t) :
    (opField w = 0b00#2 → t.done = true) ∧ (opField w = 0b01#2 ∨ opField w = 0b10#2 → t.done = false) ∧
    (opField w = 0b11#2 → t.done = s.done) := by
  obtain ⟨hop, rfl⟩ | ⟨hop, rfl⟩ | ⟨hop, rfl⟩ | ⟨hop, rfl⟩ := exec_decode_cases h <;> simp [hop]

/-- Settles O41: a step falls under one of the four clauses, by what it takes. -/
theorem doneWriters : Obligations.DoneWriters := by
  intro s t h
  obtain ⟨hreset, hcommand, -, -⟩ := taken_exclusive s
  refine ⟨fun hr => ?_, fun w hw => ?_, fun htransfer => ?_, fun hr hc hin hout => ?_⟩
  · obtain rfl := Host.Outcome.next.inj ((step_reset hr).symm.trans h)
    rfl
  · have hexec := (step_command hw).symm.trans h
    have hdone := exec_decode_done hexec
    rwa [takeEvent_done] at hdone
  · obtain ⟨hr, -⟩ | ⟨w, hw, -⟩ | ⟨-, hm, b, rest, rfl⟩ | ⟨-, hm, rfl⟩ | ⟨⟨-, -, hin, hout⟩, -⟩ := step_taken_cases h
    · obtain ⟨-, hin, hout⟩ := hreset hr
      simp [hin, hout] at htransfer
    · obtain ⟨-, hin, hout⟩ := hcommand w hw
      simp [hin, hout] at htransfer
    · exact receiveByte_done b hm
    · exact sendByte_done hm
    · simp [hin, hout] at htransfer
  · obtain ⟨-, -, -, -, -, hdone, -⟩ := step_frame_of_nothing_taken h hr hc hin hout
    exact hdone

/-! ### Registers no host can see -/

/-- A byte in, as one choice by the flag and the cap (spec/41_decode.md R91, R92). -/
theorem receiveByte_eq (b : Byte) (s : State) :
    receiveByte b s = if decodeContinues b (nextShift s) then receiveGroup b s
      else complete (receiveGroup b s).acc (receiveGroup b s) := rfl

/-- A byte out, as one choice by the remaining bits and the cap (spec/42_encode.md R112, R113). -/
theorem sendByte_eq (s : State) :
    sendByte s = if encodeContinues (remaining s.acc) (nextSize s) then sendGroup (outByteTo (presentedByte s.acc) s)
      else complete (BitVec.ofNat 64 (nextSize s)) (sendGroup (outByteTo (presentedByte s.acc) s)) := rfl

section SameView

variable {s₁ s₂ : State}

/-! #### What two such states share -/

theorem mode_eq_of_sameView (h : SameView s₁ s₂) : s₁.mode = s₂.mode := by
  obtain ⟨⟨hmode, -⟩, -⟩ := h
  exact hmode

theorem input_eq_of_sameView (h : SameView s₁ s₂) : s₁.input = s₂.input := by
  obtain ⟨-, ⟨hinput, -⟩, -⟩ := h
  exact hinput

theorem script_eq_of_sameView (h : SameView s₁ s₂) : s₁.script = s₂.script := by
  obtain ⟨-, ⟨-, -, -, hscript, -⟩, -⟩ := h
  exact hscript

/-- The registers a decode reads (spec/10_state.md R22, R23). -/
theorem decode_registers_of_sameView (h : SameView s₁ s₂) (hm : s₁.mode = .dec) :
    s₁.acc = s₂.acc ∧ s₁.shift = s₂.shift := by
  obtain ⟨-, -, hdec, -⟩ := h
  exact hdec hm

/-- The registers an encode reads (spec/10_state.md R22, R24). -/
theorem encode_registers_of_sameView (h : SameView s₁ s₂) (hm : s₁.mode = .enc) :
    s₁.acc = s₂.acc ∧ s₁.size = s₂.size := by
  obtain ⟨-, -, -, henc, -⟩ := h
  exact henc hm

/-! #### The operations -/

theorem sameView_complete {v₁ v₂ : Value} (hv : v₁ = v₂) (h : SameView s₁ s₂) :
    SameView (complete v₁ s₁) (complete v₂ s₂) := by
  obtain ⟨⟨-, -, herr⟩, hhost, -, -, -⟩ := h
  exact ⟨⟨rfl, rfl, herr⟩, hhost, nofun, nofun, fun _ => hv⟩

theorem sameView_beginDecode (h : SameView s₁ s₂) : SameView (beginDecode s₁) (beginDecode s₂) := by
  obtain ⟨⟨-, -, herr⟩, hhost, -, -, -⟩ := h
  exact ⟨⟨rfl, rfl, herr⟩, hhost, fun _ => ⟨rfl, rfl⟩, nofun, nofun⟩

theorem sameView_beginEncode (v : Value) (h : SameView s₁ s₂) : SameView (beginEncode v s₁) (beginEncode v s₂) := by
  obtain ⟨⟨-, -, herr⟩, hhost, -, -, -⟩ := h
  exact ⟨⟨rfl, rfl, herr⟩, hhost, nofun, fun _ => ⟨rfl, rfl⟩, nofun⟩

theorem sameView_raiseCmdError (h : SameView s₁ s₂) : SameView (raiseCmdError s₁) (raiseCmdError s₂) := by
  obtain ⟨⟨hmode, hdone, -⟩, hregs⟩ := h
  exact ⟨⟨hmode, hdone, rfl⟩, hregs⟩

theorem sameView_takeReset (h : SameView s₁ s₂) : SameView (takeReset s₁) (takeReset s₂) := by
  obtain ⟨-, hhost, -, -, -⟩ := h
  exact ⟨⟨rfl, rfl, rfl⟩, hhost, nofun, nofun, nofun⟩

theorem sameView_takeEvent (rest : List HostEvent) (h : SameView s₁ s₂) :
    SameView (takeEvent rest s₁) (takeEvent rest s₂) := by
  obtain ⟨hflags, ⟨hinput, houtput, hsamples, -, htick⟩, hregs⟩ := h
  exact ⟨hflags, ⟨hinput, houtput, hsamples, rfl, congrArg (· + 1) htick⟩, hregs⟩

theorem sameView_noteSamples (xs : List Sample) (h : SameView s₁ s₂) :
    SameView (noteSamples xs s₁) (noteSamples xs s₂) := by
  obtain ⟨hflags, ⟨hinput, houtput, hsamples, hscript, htick⟩, hregs⟩ := h
  exact ⟨hflags, ⟨hinput, houtput, congrArg (· ++ xs) hsamples, hscript, htick⟩, hregs⟩

theorem sameView_keepInput (rest : List Byte) (h : SameView s₁ s₂) :
    SameView (keepInput rest s₁) (keepInput rest s₂) := by
  obtain ⟨hflags, ⟨-, houtput, hsamples, hscript, htick⟩, hregs⟩ := h
  exact ⟨hflags, ⟨rfl, houtput, hsamples, hscript, htick⟩, hregs⟩

theorem sameView_outByteTo (b : Byte) (h : SameView s₁ s₂) : SameView (outByteTo b s₁) (outByteTo b s₂) := by
  obtain ⟨hflags, ⟨hinput, houtput, hsamples, hscript, htick⟩, hregs⟩ := h
  exact ⟨hflags, ⟨hinput, congrArg (· ++ [b]) houtput, hsamples, hscript, htick⟩, hregs⟩

/-- In `DEC` the new `ACC` and `SHIFT` are made from the old ones (spec/41_decode.md R91). -/
theorem sameView_receiveGroup (b : Byte) (h : SameView s₁ s₂) (hm : s₁.mode = .dec) :
    SameView (receiveGroup b s₁) (receiveGroup b s₂) := by
  obtain ⟨hacc, hshift⟩ := decode_registers_of_sameView h hm
  obtain ⟨hflags, hhost, -, -, hresult⟩ := h
  refine ⟨hflags, hhost, fun _ => ⟨?_, ?_⟩, fun henc => absurd (hm.symm.trans henc) nofun, hresult⟩
  · rw [receiveGroup_acc, receiveGroup_acc, hacc, hshift]
  · rw [receiveGroup_shift, receiveGroup_shift, nextShift, nextShift, hshift]

/-- In `ENC` the new `ACC` and `SIZE` are made from the old ones (spec/42_encode.md R112). -/
theorem sameView_sendGroup (h : SameView s₁ s₂) (hm : s₁.mode = .enc) : SameView (sendGroup s₁) (sendGroup s₂) := by
  obtain ⟨hacc, hsize⟩ := encode_registers_of_sameView h hm
  obtain ⟨hflags, hhost, -, -, hresult⟩ := h
  refine ⟨hflags, hhost, fun hdec => absurd (hm.symm.trans hdec) nofun, fun _ => ⟨?_, ?_⟩, hresult⟩
  · rw [sendGroup_acc, sendGroup_acc, hacc]
  · rw [sendGroup_size, sendGroup_size, nextSize, nextSize, hsize]

/-- Two decodes no host can tell apart end with the same byte, and with the same value (spec/41_decode.md R91). -/
theorem sameView_receiveByte (b : Byte) (h : SameView s₁ s₂) (hm : s₁.mode = .dec) :
    SameView (receiveByte b s₁) (receiveByte b s₂) := by
  have hgroup := sameView_receiveGroup b h hm
  obtain ⟨-, hshift⟩ := decode_registers_of_sameView h hm
  obtain ⟨hacc, -⟩ := decode_registers_of_sameView hgroup hm
  rw [receiveByte_eq, receiveByte_eq, nextShift, nextShift, ← hshift]
  split
  · exact hgroup
  · exact sameView_complete hacc hgroup

/-- Two encodes no host can tell apart send the same byte, and end with the same one and the same count
(spec/42_encode.md R112). -/
theorem sameView_sendByte (h : SameView s₁ s₂) (hm : s₁.mode = .enc) : SameView (sendByte s₁) (sendByte s₂) := by
  have hsent := sameView_sendGroup (sameView_outByteTo (presentedByte s₁.acc) h) hm
  obtain ⟨hacc, hsize⟩ := encode_registers_of_sameView h hm
  rw [sendByte_eq, sendByte_eq, nextSize, nextSize, ← hacc, ← hsize]
  split
  · exact hsent
  · exact sameView_complete rfl hsent

/-! #### What the host sees -/

theorem statusWord_eq_of_sameView (h : SameView s₁ s₂) : statusWord s₁ = statusWord s₂ := by
  obtain ⟨⟨hmode, hdone, herr⟩, -⟩ := h
  rw [statusWord, statusWord, hmode, hdone, herr]

/-- `OUT_BYTE` is read from `ACC` while `OUT_VALID` (spec/10_state.md R29). -/
theorem outByte_eq_of_sameView (h : SameView s₁ s₂) (hm : s₁.mode = .enc) : outByte s₁ = outByte s₂ := by
  obtain ⟨hacc, -⟩ := encode_registers_of_sameView h hm
  simp only [outByte, outValid, ← mode_eq_of_sameView h, hm, hacc, beq_self_eq_true, if_true]

/-- `RESULT` is read only while `DONE` (spec/70_reset_and_hazards.md R153). -/
theorem readResult_eq_of_sameView (h : SameView s₁ s₂) : readResult s₁ = readResult s₂ := by
  obtain ⟨⟨-, hdone, -⟩, -, -, -, hresult⟩ := h
  rw [readResult, readResult, ← hdone]
  split
  · rename_i hd
    rw [hresult hd]
  · rfl

theorem readWords_eq_of_sameView (sel : ReadSel) (h : SameView s₁ s₂) : readWords sel s₁ = readWords sel s₂ := by
  have hstatus := statusWord_eq_of_sameView h
  have hresult := readResult_eq_of_sameView h
  cases sel <;> simp only [readWords, hstatus, hresult]

/-! #### The step -/

/-- Two outcomes no host can tell apart: next states no host can tell apart, or the same stop. -/
inductive SameOutcome : Host.Outcome State Fault Refusal → Host.Outcome State Fault Refusal → Prop where
  | next {t₁ t₂ : State} (h : SameView t₁ t₂) : SameOutcome (.next t₁) (.next t₂)
  | stop {o : Host.Outcome State Fault Refusal} (h : ∀ t, o ≠ .next t) : SameOutcome o o

theorem SameOutcome.exists_next {t₁ : State} {o : Host.Outcome State Fault Refusal} (h : SameOutcome (.next t₁) o) :
    ∃ t₂, o = .next t₂ ∧ SameView t₁ t₂ := by
  cases h with
  | next h => exact ⟨_, rfl, h⟩
  | stop h => exact absurd rfl (h t₁)

theorem SameOutcome.eq_fault {f : Fault} {o : Host.Outcome State Fault Refusal} (h : SameOutcome (.fault f) o) :
    o = .fault f := by
  cases h with
  | stop => rfl

theorem sameOutcome_exec (i : Instr) (h : SameView s₁ s₂) : SameOutcome (exec i s₁) (exec i s₂) := by
  cases i with
  | len7 v => exact .next (sameView_complete rfl h)
  | dec7 v => exact .next (sameView_beginDecode h)
  | enc7 v => exact .next (sameView_beginEncode v h)
  | reserved v => exact .next (sameView_raiseCmdError h)

theorem sameOutcome_execByteIn (h : SameView s₁ s₂) (hm : s₁.mode = .dec) :
    SameOutcome (execByteIn s₁) (execByteIn s₂) := by
  rw [execByteIn, execByteIn, inByte, inByte, ← input_eq_of_sameView h]
  cases s₁.input with
  | nil => exact .next h
  | cons b rest => exact .next (sameView_receiveByte b (sameView_keepInput rest h) hm)

theorem sameOutcome_transfer (supply take : Bool) (h : SameView s₁ s₂) :
    SameOutcome (transfer supply take s₁) (transfer supply take s₂) := by
  rw [transfer, transfer, ← mode_eq_of_sameView h]
  cases hm : s₁.mode with
  | idle => exact .next h
  | dec =>
    cases supply with
    | false => exact .next h
    | true => exact sameOutcome_execByteIn h hm
  | enc =>
    cases take with
    | false => exact .next h
    | true => exact .next (sameView_sendByte h hm)

theorem sameOutcome_takePresented (p : Presented) (h : SameView s₁ s₂) :
    SameOutcome (takePresented p s₁) (takePresented p s₂) := by
  rw [takePresented, takePresented]
  split
  · exact .next (sameView_takeReset h)
  · split
    · exact sameOutcome_exec _ h
    · exact sameOutcome_transfer _ _ h

theorem sameOutcome_execRead (sel : ReadSel) (h : SameView s₁ s₂) : SameOutcome (execRead sel s₁) (execRead sel s₂) := by
  rw [execRead, execRead, readWords_eq_of_sameView sel h]
  split
  · exact .next (sameView_noteSamples _ h)
  · exact .stop nofun

/-- Two states no host can tell apart take steps no host can tell apart (spec/10_state.md R32). -/
theorem sameOutcome_step (h : SameView s₁ s₂) : SameOutcome (step s₁) (step s₂) := by
  have hscript := script_eq_of_sameView h
  cases hs : s₁.script with
  | nil =>
    rw [step_nil hs, step_nil (hscript.symm.trans hs)]
    exact .next h
  | cons e rest =>
    rw [step_cons hs, step_cons (hscript.symm.trans hs)]
    have htaken := sameView_takeEvent rest h
    cases e with
    | present p => exact sameOutcome_takePresented p htaken
    | read sel => exact sameOutcome_execRead sel htaken

end SameView

/-- Settles O43: what the host sees is a function of the shared registers, and each operation of a step keeps the two
states alike (`sameOutcome_step`). -/
theorem idleRegistersUnobservable : Obligations.IdleRegistersUnobservable := by
  intro s₁ s₂ h
  have hmode := mode_eq_of_sameView h
  have hstep := sameOutcome_step h
  refine ⟨⟨statusWord_eq_of_sameView h, ?_, ?_, outByte_eq_of_sameView h,
    fun sel => readWords_eq_of_sameView sel h⟩, fun t₁ ht => ?_, fun f hf => ?_⟩
  · rw [inReady, inReady, hmode]
  · rw [outValid, outValid, hmode]
  · rw [ht] at hstep
    exact hstep.exists_next
  · rw [hf] at hstep
    exact hstep.eq_fault

end Sys2Proof.Machine
end

section
/-! PROOFS. The host's side of the ports (spec/20_memory.md): a block held with nothing presented, a transfer that is not
enabled, and what moves a byte of the two streams. -/

namespace Sys2Proof.Machine

/-! ### A held block -/

/-- Settles O8: by induction on the number of steps, each of which answers the state it starts from. -/
theorem blockWaitsForHost : Obligations.BlockWaitsForHost := by
  intro s hs k
  induction k with
  | zero => exact run_zero s
  | succ k ih => rw [run_succ (step_nil hs), ih]

/-! ### A transfer that is not enabled -/

/-- An event without reset and command is its byte transfer (spec/60_exceptions.md R135). -/
theorem step_transfer {s : State} {p : Presented} {rest : List HostEvent} (hs : s.script = .present p :: rest)
    (hr : p.reset = false) (hc : p.command = none) :
    step s = transfer p.supply p.take (takeEvent rest s) := by
  simp [step_cons hs, takeHostEvent, takePresented, hr, hc]

/-- An offer outside `DEC` or of no byte, and a take outside `ENC`, leave the state (spec/20_memory.md R54, 41_decode.md
R96). -/
theorem transfer_of_not_enabled {supply take : Bool} {s : State} (hin : supply = true → s.mode ≠ .dec ∨ s.input = [])
    (hout : take = true → s.mode ≠ .enc) : transfer supply take s = .next s := by
  obtain ⟨t, ht⟩ := transfer_completes supply take s
  obtain ⟨hsupply, hm, b, rest, hi, -⟩ | ⟨htake, hm, -⟩ | ⟨rfl, -⟩ := transfer_cases ht
  · obtain hne | hnil := hin hsupply
    · exact absurd hm hne
    · rw [hnil] at hi; cases hi
  · exact absurd hm (hout htake)
  · exact ht

/-- Settles O37: the step is the transfer presented, and that transfer is not enabled. -/
theorem transferNotEnabledDoesNothing : Obligations.TransferNotEnabledDoesNothing := by
  intro s p rest hs hr hc hin hout
  rw [step_transfer hs hr hc]
  exact transfer_of_not_enabled (s := takeEvent rest s) hin hout

/-! ### What moves a byte -/

/-- A command moves no byte of either stream (spec/60_exceptions.md R135). -/
theorem exec_keeps_streams {i : Instr} {s t : State} (h : exec i s = .next t) :
    t.input = s.input ∧ t.output = s.output := by
  obtain ⟨v, -, rfl⟩ | ⟨v, -, rfl⟩ | ⟨v, -, rfl⟩ | ⟨v, -, rfl⟩ := exec_cases h <;> exact ⟨rfl, rfl⟩

/-- `OUT_BYTE` in `ENC` is the byte of the accumulator (spec/10_state.md R29, 42_encode.md R111). -/
theorem outByte_of_enc {s : State} (hm : s.mode = .enc) : outByte s = presentedByte s.acc := by
  simp [outByte, outValid, hm]

/-- Settles O38: one case for each thing a step can do; a byte in takes the front of the input, a byte out appends the
presented byte, and no other case moves a byte. -/
theorem streamsMoveOneByteInOrder : Obligations.StreamsMoveOneByteInOrder := by
  intro s t h
  obtain ⟨hreset, hcommand, hbyteIn, hbyteOut⟩ := taken_exclusive s
  obtain ⟨hs, rfl⟩ | ⟨hr, rfl⟩ | ⟨w, hw, hx⟩ | ⟨hin, -, b, rest, hi, rfl⟩ | ⟨hout, hm, rfl⟩ |
    ⟨-, -, hin, hout, xs, rfl⟩ := step_cases h
  · obtain ⟨-, -, hin, hout⟩ := nothing_taken_of_script_nil hs
    simp [hin, hout]
  · obtain ⟨-, hin, hout⟩ := hreset hr
    simp [hin, hout]
  · obtain ⟨-, hin, hout⟩ := hcommand w hw
    obtain ⟨hinput, houtput⟩ := exec_keeps_streams hx
    simp [hin, hout, hinput, houtput]
  · obtain ⟨-, -, hout⟩ := hbyteIn hin
    obtain ⟨-, -, -, hinput, houtput, -⟩ := receiveByte_frame b (keepInput rest (takeEvent s.script.tail s))
    simp [hin, hout, hi, hinput, houtput]
  · obtain ⟨-, -, hin⟩ := hbyteOut hout
    obtain ⟨-, -, -, hinput, houtput, -⟩ := sendByte_frame (takeEvent s.script.tail s)
    simp [hin, hout, hinput, houtput, outByte_of_enc hm]
  · simp [hin, hout]

end Sys2Proof.Machine
end

section
/-! PROOFS. The command word and the wire format (spec/30_encoding.md): the two fields of a word, the rows of the opcode
table, the canonical encoding, and the lines of a host program. -/

namespace Sys2Proof.Machine

/-! ### Decoding a command word -/

theorem decode_word_len7 (v : Value) : decode (0b00#2 ++ v) = .len7 v := by
  simp [decode, Laws.opField_append, Laws.valueField_append]

theorem decode_word_dec7 (v : Value) : decode (0b01#2 ++ v) = .dec7 v := by
  simp [decode, Laws.opField_append, Laws.valueField_append]

theorem decode_word_enc7 (v : Value) : decode (0b10#2 ++ v) = .enc7 v := by
  simp [decode, Laws.opField_append, Laws.valueField_append]

theorem decode_word_reserved (v : Value) : decode (0b11#2 ++ v) = .reserved v := by
  simp [decode, Laws.opField_append, Laws.valueField_append]

/-- Reading the word of an instruction gives the instruction (spec/30_encoding.md R66, R67, R69). -/
theorem decode_encode (i : Instr) : decode (encode i) = i := by
  cases i with
  | len7 v => exact decode_word_len7 v
  | dec7 v => exact decode_word_dec7 v
  | enc7 v => exact decode_word_enc7 v
  | reserved v => exact decode_word_reserved v

/-- Settles O3: one word per constructor, each with its `OP` above its `VALUE`. -/
theorem decodeInvertsEncode : Obligations.DecodeInvertsEncode :=
  fun i _ => decode_encode i

/-- The decoded instruction's operation is the word's `OP` field (spec/30_encoding.md R70). -/
theorem op_decode (w : CmdWord) : (decode w).op = opField w := by
  obtain ⟨hop, hw⟩ | ⟨hop, hw⟩ | ⟨hop, hw⟩ | ⟨hop, hw⟩ := decode_cases w <;> rw [hw, hop] <;> rfl

/-- The decoded instruction's operand is the word's `VALUE` field (spec/30_encoding.md R68). -/
theorem value_decode (w : CmdWord) : (decode w).value = valueField w := by
  obtain ⟨-, hw⟩ | ⟨-, hw⟩ | ⟨-, hw⟩ | ⟨-, hw⟩ := decode_cases w <;> rw [hw] <;> rfl

/-- Settles O4: the decoded instruction holds both fields, and a word is its two fields. -/
theorem encodeInvertsDecode : Obligations.EncodeInvertsDecode := by
  intro w
  refine ⟨?_, wellFormed_of_type _⟩
  rw [encode, op_decode, value_decode, Laws.word_of_fields]

/-- Settles O1: each word is decoded by computing. -/
theorem writtenOutWordsDecode : Obligations.WrittenOutWordsDecode :=
  ⟨by decide, by decide, by decide, by decide⟩

/-- Settles O2: one lemma for each `OP`. -/
theorem opSelectsTheCommand : Obligations.OpSelectsTheCommand :=
  fun v => ⟨decode_word_len7 v, decode_word_dec7 v, decode_word_enc7 v, decode_word_reserved v⟩

/-- Settles O31: `OP` is what the decoder selects by, and the meaning of the reserved word is to raise the error. -/
theorem reservedSetsCmdErrOnly : Obligations.ReservedSetsCmdErrOnly := by
  refine ⟨fun w => ⟨fun hop => ?_, fun hw => ?_⟩, fun v s => rfl⟩
  · rw [← Laws.word_of_fields w, hop, decode_word_reserved, Laws.valueField_append]
  · rw [← op_decode, hw, Instr.op]

/-! ### The rows of the opcode table -/

/-- Every row looks at the `OP` field and at no other bit (spec/30_encoding.md R70). -/
theorem mask_of_mem_opcodeTable : ∀ row ∈ opcodeTable, row.mask = 0b11#2 ++ 0#64 := by decide

/-- No two rows ask for the same bits (spec/30_encoding.md R73). -/
theorem pattern_injective_on_opcodeTable :
    ∀ row ∈ opcodeTable, ∀ other ∈ opcodeTable, other.pattern = row.pattern → other = row := by decide

theorem and_opMask (w : CmdWord) : w &&& (0b11#2 ++ 0#64) = opField w ++ 0#64 := by
  have hmask : opField w &&& 0b11#2 = opField w := BitVec.and_allOnes
  conv_lhs => rw [← Laws.word_of_fields w]
  rw [BitVec.and_append, hmask, BitVec.and_zero]

/-- A row accepts the words that have its pattern in the `OP` field. -/
theorem accepts_iff {row : OpcodeRow} (h : row ∈ opcodeTable) (w : CmdWord) :
    row.accepts w = true ↔ row.pattern = opField w ++ 0#64 := by
  rw [OpcodeRow.accepts, mask_of_mem_opcodeTable row h, and_opMask, beq_iff_eq, eq_comm]

/-- Every instruction has its row, with its `OP` and its name (spec/30_encoding.md R67, R69). -/
theorem exists_row (i : Instr) :
    ∃ row ∈ opcodeTable, row.pattern = i.op ++ 0#64 ∧ row.mnemonic = i.mnemonic := by
  cases i with
  | len7 _ => exact (by decide : ∃ row ∈ opcodeTable, row.pattern = 0b00#2 ++ 0#64 ∧ row.mnemonic = "LEN7")
  | dec7 _ => exact (by decide : ∃ row ∈ opcodeTable, row.pattern = 0b01#2 ++ 0#64 ∧ row.mnemonic = "DEC7")
  | enc7 _ => exact (by decide : ∃ row ∈ opcodeTable, row.pattern = 0b10#2 ++ 0#64 ∧ row.mnemonic = "ENC7")
  | reserved _ => exact (by decide : ∃ row ∈ opcodeTable, row.pattern = 0b11#2 ++ 0#64 ∧ row.mnemonic = "(reserved)")

/-- Settles O5: the row of the decoded instruction accepts the word, and two rows that accept it ask for the same bits. -/
theorem opcodeRowsPartitionWords : Obligations.OpcodeRowsPartitionWords := by
  intro w
  obtain ⟨row, hrow, hpattern, hname⟩ := exists_row (decode w)
  rw [op_decode] at hpattern
  refine ⟨row, hrow, (accepts_iff hrow w).2 hpattern, hname, fun other hother haccepts => ?_⟩
  have hsame := (accepts_iff hother w).1 haccepts
  exact pattern_injective_on_opcodeTable row hrow other hother (hsame.trans hpattern.symm)

/-! ### A table word placed as the next command -/

/-- A table word that has a reading fits the command port (spec/30_encoding.md R66; log entry 7). -/
theorem fits_and_decode_of_decodeTableWord {nbits w : Nat} {i : Instr} (h : decodeTableWord nbits w = some i) :
    fitsCommandPort (w % 2 ^ nbits) = true ∧ decode (BitVec.ofNat 66 (w % 2 ^ nbits)) = i := by
  rw [decodeTableWord, decodeNumber] at h
  by_cases hfits : fitsCommandPort (w % 2 ^ nbits) = true
  · rw [if_pos hfits] at h
    exact ⟨hfits, Option.some.inj h⟩
  · rw [if_neg hfits] at h
    cases h

theorem withFetchWord_of_fits (s : State) {nbits w : Nat} (h : fitsCommandPort (w % 2 ^ nbits) = true) :
    s.withFetchWord nbits w =
      { s with script := commandEvent (BitVec.ofNat 66 (w % 2 ^ nbits)) :: s.script } := by
  rw [State.withFetchWord, placeCommand, if_pos h]

/-- Settles O7: the word fits the port, so it stands in front of the script, and the step takes it. -/
theorem placedTableWordRunsNext : Obligations.PlacedTableWordRunsNext := by
  intro s nbits w i h
  obtain ⟨hfits, hword⟩ := fits_and_decode_of_decodeTableWord h
  rw [withFetchWord_of_fits s hfits, command_taken rfl, hword]
  rfl

/-! ### The canonical encoding -/

/-- An encode from its command on: `n` takes receive the first `n` bytes of the encoding, and all of them end it
(spec/42_encode.md R110, R113). -/
theorem run_encodeScript {s : State} {v : Value} {n : Nat} {tail : List HostEvent}
    (hs : s.script = encodeScript v n tail) :
    ∃ t : State, Host.Core.run core (n + 1) s = .next t ∧ t.output = s.output ++ (encoding v).take n ∧
      t.input = s.input ∧ t.cmdErr = s.cmdErr ∧ t.script = tail ∧
      (encodedLength v ≤ n → t.mode = .idle ∧ t.done = true ∧ t.result.toNat = encodedLength v) := by
  have hstep := command_taken hs
  rw [decode_encode] at hstep
  obtain ⟨t, hrun, hout, hin, herr, hscript, hend⟩ := encode_in_flight 5 n
    (beginEncode v (takeEvent (List.replicate n takeByteEvent ++ tail) s)) tail rfl rfl rfl
  rw [beginEncode_acc, emits_six] at hout hend
  rw [encoding_length, beginEncode_size, BitVec.toNat_zero, Nat.zero_add] at hend
  exact ⟨t, (run_succ hstep n).trans hrun, hout, hin, herr, hscript, hend⟩

/-- Byte `k` of the encoding: its group, flagged exactly when it is not the last (spec/30_encoding.md R62, R64). -/
theorem encodedByte_toNat (v : Value) (k : Nat) :
    (encodedByte v.toNat k).toNat = (v.toNat >>> (7 * k)) % 128 + if k + 1 < len7 v then 128 else 0 := by
  have hflag : v.toNat / 2 ^ (7 * (k + 1)) = 0 ↔ ¬ k + 1 < len7 v := by
    rw [Nat.div_eq_zero_iff_lt (by positivity), ← len7_le_iff, not_lt]
  rw [encodedByte, Nat.shiftRight_eq_div_pow, BitVec.toNat_ofNat]
  by_cases h : k + 1 < len7 v
  · rw [if_neg (fun hz => hflag.1 hz h), if_pos h]; omega
  · rw [if_pos (hflag.2 h), if_neg h]; omega

theorem encodedByte_group (v k : Nat) : (encodedByte v k).toNat % 128 = v / 2 ^ (7 * k) % 128 := by
  rw [encodedByte, BitVec.toNat_ofNat]
  split <;> omega

/-- The groups of `n` bytes are the low `7n` bits of the value (spec/30_encoding.md R61). -/
theorem wireSum_encodedBytes (n k v : Nat) :
    wireSum k ((List.range n).map (encodedByte v)) = v % 2 ^ (7 * n) * 2 ^ (7 * k) := by
  induction n generalizing k v with
  | zero => simp [wireSum, Nat.mod_one]
  | succ n ih =>
    have htail : (List.range n).map (encodedByte v ∘ Nat.succ) = (List.range n).map (encodedByte (v / 128)) :=
      List.map_congr_left fun j _ => encodedByte_succ v j
    have hhead := encodedByte_group v 0
    rw [Nat.mul_zero, pow_zero, Nat.div_one] at hhead
    rw [List.range_succ_eq_map, List.map_cons, List.map_map, htail, wireSum, ih, hhead]
    calc v % 128 * 2 ^ (7 * k) + v / 128 % 2 ^ (7 * n) * 2 ^ (7 * (k + 1))
        = (v % 128 + 128 * (v / 128 % 2 ^ (7 * n))) * 2 ^ (7 * k) := by ring
      _ = v % 2 ^ (7 * (n + 1)) * 2 ^ (7 * k) := by
        rw [← Nat.mod_mul, show 128 * 2 ^ (7 * n) = 2 ^ (7 * (n + 1)) by ring]

/-- The wire value of what an encode emits: the low bits of the value, seven for each byte (spec/42_encode.md R115). -/
theorem wireSum_encoding (v : Value) : wireSum 0 (encoding v) = v.toNat % 2 ^ (7 * encodedLength v) := by
  rw [encoding, wireSum_encodedBytes, Nat.mul_zero, pow_zero, Nat.mul_one]

/-- A value fits in the groups of its length (spec/40_length.md R81). -/
theorem toNat_lt_two_pow_len7 (v : Value) : v.toNat < 2 ^ (7 * len7 v) := by
  have hpos := len7_pos v
  have h := (len7_le_iff (len7 v - 1) v).1 (by omega)
  rwa [Nat.sub_add_cancel hpos] at h

/-- Below `2^42` the cap of six bytes does not bind (spec/42_encode.md R114). -/
theorem encodedLength_of_lt {v : Value} (h : v.toNat < 2 ^ 42) : encodedLength v = len7 v :=
  Nat.min_eq_left ((len7_le_iff 5 v).2 h)

/-- The last group of a value is 0 for the value 0 only: a shorter encoding would do for any other
(spec/30_encoding.md R62). -/
theorem eq_zero_of_last_group_eq_zero {v : Value} (h : v.toNat >>> (7 * (len7 v - 1)) % 128 = 0) : v = 0#64 := by
  have hpos := len7_pos v
  have hfits := toNat_lt_two_pow_len7 v
  have hsmall : v.toNat < 2 ^ (7 * (len7 v - 1)) := by
    rw [show 7 * len7 v = 7 * (len7 v - 1) + 7 by omega, pow_add] at hfits
    have hgroup : v.toNat / 2 ^ (7 * (len7 v - 1)) < 128 := Nat.div_lt_of_lt_mul hfits
    rwa [Nat.shiftRight_eq_div_pow, Nat.mod_eq_of_lt hgroup, Nat.div_eq_zero_iff_lt (by positivity)] at h
  obtain hone | hmore := Nat.eq_or_lt_of_le hpos
  · rw [← hone] at hsmall
    exact BitVec.eq_of_toNat_eq (Nat.lt_one_iff.1 hsmall)
  · have hshort := (len7_le_iff (len7 v - 2) v).2 (by rwa [show len7 v - 2 + 1 = len7 v - 1 by omega])
    omega

/-- The bytes of the encoding by their place (spec/42_encode.md R114). -/
theorem eq_encodedByte_of_getElem? {v : Value} {k : Nat} {b : Byte} (h : (encoding v)[k]? = some b) :
    b = encodedByte v.toNat k := by
  obtain ⟨hk, rfl⟩ := List.getElem?_eq_some_iff.1 h
  simp [encoding]

/-- Settles O26: the bytes are the encoding, each byte is its group and its flag, and the last group is not 0. -/
theorem canonicalEncoding : Obligations.CanonicalEncoding := by
  intro v s tail hv hs
  have hlen := encodedLength_of_lt hv
  obtain ⟨t, hrun, hout, -, -, -, hend⟩ := run_encodeScript hs
  obtain ⟨hmode, -⟩ := hend hlen.le
  rw [List.take_of_length_le (by rw [encoding_length, hlen])] at hout
  refine ⟨t, encoding v, hrun, hmode, hout, ?_, len7_pos v, (len7_le_iff 5 v).2 hv, ?_, ?_, ?_⟩
  · rw [encoding_length, hlen]
  · intro k b hb
    rw [eq_encodedByte_of_getElem? hb, encodedByte_toNat]
  · intro hlast
    rw [List.getLast?_eq_getElem?, encoding_length, hlen] at hlast
    have hgroup := encodedByte_group v.toNat (len7 v - 1)
    rw [← eq_encodedByte_of_getElem? hlast, ← Nat.shiftRight_eq_div_pow] at hgroup
    obtain rfl := eq_zero_of_last_group_eq_zero hgroup.symm
    exact ⟨rfl, by decide⟩
  · rw [wireSum_encoding, hlen, Nat.mod_eq_of_lt (toNat_lt_two_pow_len7 v)]

/-! ### The lines of a host program -/

/-- A program of lines whose numbers fit (spec/30_encoding.md R71). -/
theorem assemble_of_wellFormed {lines : List HostLine} (h : ∀ line ∈ lines, line.wellFormed = true) :
    assemble lines = some (lines.map lineEvent) := by
  rw [assemble, if_pos (List.all_eq_true.2 h)]

theorem assemble_line {line : HostLine} (h : line.wellFormed = true) : assemble [line] = some [lineEvent line] :=
  assemble_of_wellFormed (by simpa using h)

/-- A line whose number is too wide for its field assembles to nothing (spec/30_encoding.md R71, R66). -/
theorem assemble_line_eq_none {line : HostLine} (h : line.wellFormed = false) : assemble [line] = none := by
  rw [assemble, if_neg (by simp [h])]

/-- The fields of a raw word as numbers (spec/30_encoding.md R66). -/
theorem opField_ofNat (w : Nat) : opField (BitVec.ofNat 66 w) = BitVec.ofNat 2 (w / 2 ^ 64) := by
  rw [← BitVec.toNat_inj]
  simp only [opField, BitVec.extractLsb'_toNat, BitVec.toNat_ofNat, Nat.shiftRight_eq_div_pow]
  omega

theorem valueField_ofNat (w : Nat) : valueField (BitVec.ofNat 66 w) = BitVec.ofNat 64 w := by
  rw [← BitVec.toNat_inj]
  simp only [valueField, BitVec.extractLsb'_toNat, BitVec.toNat_ofNat, Nat.shiftRight_eq_div_pow]
  omega

/-- A raw word is its `OP` digit above its `VALUE` (spec/30_encoding.md R66, R71). -/
theorem ofNat_eq_fields {w op : Nat} (h : w / 2 ^ 64 = op) :
    BitVec.ofNat 66 w = BitVec.ofNat 2 op ++ BitVec.ofNat 64 w := by
  rw [← h, ← opField_ofNat, ← valueField_ofNat, Laws.word_of_fields]

/-- A raw word decodes by its `OP` digit (spec/30_encoding.md R67, R69). -/
theorem decode_raw_word (w : Nat) :
    (w / 2 ^ 64 = 0b00 → decode (BitVec.ofNat 66 w) = .len7 (BitVec.ofNat 64 w)) ∧
    (w / 2 ^ 64 = 0b01 → decode (BitVec.ofNat 66 w) = .dec7 (BitVec.ofNat 64 w)) ∧
    (w / 2 ^ 64 = 0b10 → decode (BitVec.ofNat 66 w) = .enc7 (BitVec.ofNat 64 w)) ∧
    (w / 2 ^ 64 = 0b11 → decode (BitVec.ofNat 66 w) = .reserved (BitVec.ofNat 64 w)) := by
  refine ⟨fun h => ?_, fun h => ?_, fun h => ?_, fun h => ?_⟩ <;> rw [ofNat_eq_fields h]
  · exact decode_word_len7 _
  · exact decode_word_dec7 _
  · exact decode_word_enc7 _
  · exact decode_word_reserved _

theorem loadProgram_of_assemble {lines : List HostLine} {events : List HostEvent} (left : List Byte) (s : State)
    (h : assemble lines = some events) :
    loadProgram lines left s = some { s with script := events, input := lines.flatMap lineInput ++ left } := by
  rw [loadProgram, h, Option.map_some]

/-- `IN` lines offer a byte each (spec/30_encoding.md R71). -/
theorem assemble_inputs {bytes : List Nat} (h : ∀ b ∈ bytes, b < 256) :
    assemble (bytes.map .input) = some (List.replicate bytes.length supplyEvent) := by
  rw [assemble_of_wellFormed, List.map_map]
  · exact congrArg some (List.map_const)
  · intro line hline
    obtain ⟨b, hb, rfl⟩ := List.mem_map.1 hline
    exact decide_eq_true (h b hb)

/-- `IN` lines put their bytes into the host's stream, in order (spec/30_encoding.md R71). -/
theorem flatMap_lineInput_inputs (bytes : List Nat) :
    (bytes.map HostLine.input).flatMap lineInput = bytes.map (BitVec.ofNat 8) := by
  induction bytes with
  | nil => rfl
  | cons b bytes ih => rw [List.map_cons, List.flatMap_cons, ih]; rfl

/-- No other line puts a byte into the host's stream (spec/30_encoding.md R71). -/
theorem lineInput_of_ne_input {line : HostLine} (h : ∀ b, line ≠ .input b) : lineInput line = [] := by
  cases line with
  | input b => exact absurd rfl (h b)
  | len7 _ | dec7 | enc7 _ | output _ | rd | rst | word _ => rfl

/-- Settles O47: each line's event by its own row of the table, raw words by their fields, and a number too wide fails the
line's check. -/
theorem hostLinesPresentTheirWords : Obligations.HostLinesPresentTheirWords := by
  refine ⟨fun v hv => ?_, fun w hw => ?_, assemble_line rfl, by decide, fun bytes left s hbytes => ?_,
    fun line e left s hline he => ?_, fun name => assemble_line rfl, assemble_line rfl, assemble_line rfl,
    fun v hv => ?_, fun b hb => ?_, fun w hw => ?_⟩
  · exact ⟨assemble_line (decide_eq_true hv), assemble_line (decide_eq_true hv)⟩
  · exact ⟨assemble_line (decide_eq_true hw), decode_raw_word w⟩
  · rw [loadProgram_of_assemble left s (assemble_inputs hbytes), flatMap_lineInput_inputs]
  · rw [loadProgram_of_assemble left s he, List.flatMap_singleton, lineInput_of_ne_input hline, List.nil_append]
  · exact ⟨assemble_line_eq_none (decide_eq_false hv.not_gt), assemble_line_eq_none (decide_eq_false hv.not_gt)⟩
  · exact assemble_line_eq_none (decide_eq_false hb.not_gt)
  · exact assemble_line_eq_none (decide_eq_false hw.not_gt)

end Sys2Proof.Machine
end

section
/-! PROOFS. The length calculator (spec/40_length.md): the ranges of values of one length, the closed form, and the
count of the encoder's bytes. -/

namespace Sys2Proof.Machine

/-! ### `LEN7` -/

/-- `LEN7` completes at once with the length of its value (spec/40_length.md R80). -/
theorem exec_len7 (v : Value) (s : State) : exec (.len7 v) s = .next (complete (BitVec.ofNat 64 (len7 v)) s) := rfl

/-- Settles O13: `complete` writes the three registers, and the three lengths are found by running the loop. -/
theorem len7WritesLength : Obligations.Len7WritesLength :=
  ⟨exec_len7, by decide, by decide, by decide⟩

/-! ### The values of one length -/

/-- A value has a length of two groups or more exactly between two powers of `2^7` (spec/40_length.md R81). -/
theorem len7_eq_iff {w : Nat} (k : Nat) (v : BitVec w) :
    len7 v = k + 2 ↔ 2 ^ (7 * (k + 1)) ≤ v.toNat ∧ v.toNat < 2 ^ (7 * (k + 2)) := by
  rw [← not_lt, ← len7_le_iff k, ← len7_le_iff (k + 1)]
  omega

/-- Settles O15: each row of two groups or more is bounded by the two powers of its length; the last ends below its
power, where the values of 64 bits end. -/
theorem lengthBreakpoints : Obligations.LengthBreakpoints := by
  intro row hrow
  have hbounds : row.2.2 = 1 ∧ row.2.1 < 2 ^ 7 ∨
      ∃ k < 9, row.2.2 = k + 2 ∧ 2 ^ (7 * (k + 1)) ≤ row.1 ∧ row.2.1 < 2 ^ (7 * (k + 2)) := by
    revert row; decide
  intro v hlow hhigh
  obtain ⟨hone, hend⟩ | ⟨k, -, hlen, hstart, hend⟩ := hbounds
  · rw [hone, len7_of_small v (hhigh.trans_lt hend)]
  · rw [hlen, len7_eq_iff]
    exact ⟨hstart.trans hlow, hhigh.trans_lt hend⟩

/-! ### The closed form -/

/-- `bitlen` is the least number of bits that hold a number (spec/00_scope.md R10). -/
theorem bitlen_le_iff (n k : Nat) : bitlen n ≤ k ↔ n < 2 ^ k := by
  rw [bitlen]
  split
  · next h => simp [h]
  · next h => rw [Nat.succ_le_iff, Nat.log2_lt h]

/-- The number of groups is the number of bits over 7, rounded up: both are the least that hold the value
(spec/40_length.md R81). Only 0, of no bits, has a group more. -/
theorem len7_eq_bitlen {w : Nat} {v : BitVec w} (h : 0 < v.toNat) : len7 v = (bitlen v.toNat + 6) / 7 := by
  have hbits : 0 < bitlen v.toNat := by
    rw [← not_le, bitlen_le_iff]
    omega
  have hpos := len7_pos v
  refine eq_of_forall_ge_iff fun k => ?_
  cases k with
  | zero => omega
  | succ k =>
    rw [len7_le_iff, ← bitlen_le_iff]
    omega

/-- Settles O14: the loop by its two cases, and the closed form and the ranges from the least number of groups that hold
the value. -/
theorem lengthClosedForm : Obligations.LengthClosedForm := by
  intro w v
  refine ⟨?_, len7_of_small v, fun h => len7_eq_bitlen (by omega), fun k hk => ?_⟩
  · change len7 v = if remaining v = 0#w then 1 else len7 (remaining v) + 1
    split
    · next h => exact len7_of_small v ((remaining_eq_zero v).1 h)
    · next h => exact len7_step v h
  · obtain ⟨k, rfl⟩ := Nat.exists_eq_add_of_le' hk
    exact len7_eq_iff k v

/-! ### Against the encoder -/

/-- From `2^42` on a value takes more groups than `ENC7` emits bytes (spec/40_length.md R83). -/
theorem seven_le_len7 {v : Value} (h : 2 ^ 42 ≤ v.toNat) : 7 ≤ len7 v :=
  not_le.1 fun hle => h.not_gt ((len7_le_iff 5 v).1 hle)

/-- Settles O16: the six takes receive the whole encoding, whose length is `len7 v` up to the cap of six bytes. -/
theorem lengthAgainstEncoder : Obligations.LengthAgainstEncoder := by
  intro v s tail hs
  have hcap : encodedLength v ≤ 6 := Nat.min_le_right _ _
  obtain ⟨t, hrun, hout, -, -, -, hend⟩ := run_encodeScript hs
  obtain ⟨-, hdone, hresult⟩ := hend hcap
  rw [List.take_of_length_le (by rwa [encoding_length])] at hout
  refine ⟨t, encoding v, hrun, hout, ?_, hdone, ?_⟩ <;> rw [encoding_length]
  · rw [← hresult, BitVec.ofNat_toNat, BitVec.setWidth_eq]
  · exact ⟨rfl, fun hv => (encodedLength_of_lt hv).symm,
      fun hv => ⟨Nat.min_eq_right (Nat.le_of_lt (seven_le_len7 hv)), seven_le_len7 hv⟩⟩

end Sys2Proof.Machine
end

section
/-! PROOFS. The decoder (spec/41_decode.md): the command that starts it, one byte in, the groups on a value of any width,
and a whole decode. -/

namespace Sys2Proof.Machine

/-! ### The command -/

/-- Settles O17: `DEC7` is `beginDecode` from every state, and `DONE = 0` after it. -/
theorem dec7StartsDecode : Obligations.Dec7StartsDecode :=
  fun _ s => ⟨beginDecode s, rfl, rfl, rfl, rfl⟩

/-! ### One byte in -/

/-- A byte is taken in `DEC` only (spec/41_decode.md R91). -/
theorem mode_of_byteInTaken {s : State} (h : byteInTaken s = true) : s.mode = .dec := by
  unfold byteInTaken at h
  split at h
  · simp only [Bool.and_eq_true, beq_iff_eq] at h
    obtain ⟨⟨-, hmode⟩, -⟩ := h
    exact hmode
  all_goals cases h

/-- The condition to go on, in the bits of the byte and the shift (spec/41_decode.md R91). -/
theorem decodeContinues_iff (b : Byte) (n : Nat) :
    decodeContinues b n = true ↔ b &&& 0x80#8 ≠ 0#8 ∧ n ≤ 35 := by
  rw [decodeContinues, Bool.and_eq_true, contFlag, bne_iff_ne, decide_eq_true_iff]
  rfl

/-- `SHIFT` moves on by the width of a group, whichever way the byte in ends (spec/41_decode.md R91). -/
theorem receiveByte_shift (b : Byte) (s : State) : (receiveByte b s).shift = s.shift + 7#6 := by
  have hgroup : (receiveGroup b s).shift = s.shift + 7#6 := by
    rw [receiveGroup_shift, nextShift, BitVec.ofNat_add, BitVec.ofNat_toNat, BitVec.setWidth_eq]
    rfl
  obtain ⟨-, h⟩ | ⟨-, h⟩ := receiveByte_cases b s <;> (rw [h]; exact hgroup)

/-- Which way a byte in ends, and what it writes of `MODE`, `DONE` and `RESULT` there (spec/41_decode.md R91, R92). -/
theorem receiveByte_ends (b : Byte) (s : State) :
    if b &&& 0x80#8 ≠ 0#8 ∧ s.shift.toNat + 7 ≤ 35
    then (receiveByte b s).mode = s.mode ∧ (receiveByte b s).done = s.done ∧ (receiveByte b s).result = s.result
    else (receiveByte b s).mode = .idle ∧ (receiveByte b s).done = true ∧
      (receiveByte b s).result = (receiveByte b s).acc := by
  have hiff : decodeContinues b (nextShift s) = true ↔ b &&& 0x80#8 ≠ 0#8 ∧ s.shift.toNat + 7 ≤ 35 :=
    decodeContinues_iff b (nextShift s)
  obtain ⟨hgo, h⟩ | ⟨hstop, h⟩ := receiveByte_cases b s <;> rw [h]
  · rw [if_pos (hiff.1 hgo)]
    exact ⟨rfl, rfl, rfl⟩
  · rw [if_neg (fun hc => by rw [hiff.2 hc] at hstop; cases hstop)]
    exact ⟨rfl, rfl, rfl⟩

/-- Seven bits at a shift within the cap end below bit 42 (spec/41_decode.md R93). -/
theorem seven_bits_at_shift_le {shift : Nat} (h : shift ≤ 35) : 128 * 2 ^ shift ≤ 2 ^ 42 := by
  have hle : 2 ^ shift ≤ 2 ^ 35 := Nat.pow_le_pow_right (by decide) h
  omega

/-- A group at a shift within the cap keeps all its bits (spec/41_decode.md R93). -/
theorem placeGroup_toNat_of_le {shift : Nat} (b : Byte) (h : shift ≤ 35) :
    (placeGroup b shift : Value).toNat = (b.toNat % 128) * 2 ^ shift := by
  have hroom := group_room b (2 ^ shift)
  have hcap := seven_bits_at_shift_le h
  rw [placeGroup_toNat, Nat.mod_eq_of_lt (by omega)]

/-- A group above the bits held, at a shift within the cap, adds to them (spec/41_decode.md R91). -/
theorem accumulate_toNat_of_le {acc : Value} {shift : Nat} (b : Byte) (hacc : acc.toNat < 2 ^ shift) (h : shift ≤ 35) :
    (accumulate acc shift b).toNat = acc.toNat + (b.toNat % 128) * 2 ^ shift := by
  have hroom := group_room b (2 ^ shift)
  have hcap := seven_bits_at_shift_le h
  rw [accumulate_toNat acc acc.toNat shift b hacc (Nat.mod_eq_of_lt acc.isLt).symm, Nat.mod_eq_of_lt (by omega)]

/-- Settles O18: the frame of a byte in, its two ends, and the sum from the bits held below `SHIFT`; the example steps are
these at their values. -/
theorem byteInAddsGroup : Obligations.ByteInAddsGroup := by
  intro s b rest hsound hin hi
  have hmode := mode_of_byteInTaken hin
  obtain ⟨hdec, -, -⟩ := hsound
  obtain ⟨-, hcap, hbelow⟩ := hdec hmode
  obtain ⟨hacc, hsize, herr, hinput, hout, hsamples, hscript, -⟩ :=
    receiveByte_frame b (keepInput rest (takeEvent s.script.tail s))
  have hshift := receiveByte_shift b (keepInput rest (takeEvent s.script.tail s))
  have hends := receiveByte_ends b (keepInput rest (takeEvent s.script.tail s))
  simp only [keepInput_mode, keepInput_acc, keepInput_shift, keepInput_done, keepInput_result, takeEvent_mode,
    takeEvent_acc, takeEvent_shift, takeEvent_done, takeEvent_result, hmode] at hacc hshift hends
  refine ⟨hmode, _, step_byteIn hin hi, hacc, hshift, hends, hinput, hout, hsize, herr, hsamples, hscript, ?_, ?_, ?_⟩
  · rw [hacc, accumulate_toNat_of_le b hbelow hcap]
  · rintro ha hsh rfl
    rw [ha, hsh] at hacc
    rw [hsh] at hshift hends
    rw [if_pos (by decide)] at hends
    obtain ⟨hgoes, -⟩ := hends
    exact ⟨hacc.trans (by decide), hshift, hgoes⟩
  · rintro ha hsh rfl
    rw [ha, hsh] at hacc
    rw [hsh] at hshift hends
    rw [if_neg (by decide)] at hends
    obtain ⟨hidle, hdone, hresult⟩ := hends
    have hvalue := hacc.trans (by decide : accumulate 0x2C#64 (7#6).toNat 0x02#8 = 0x12C#64)
    exact ⟨hvalue, hshift, hresult.trans hvalue, hdone, hidle⟩

/-- Settles O19: the shift is within the cap, so the group ends below bit 42. -/
theorem groupsAddWithoutLoss : Obligations.GroupsAddWithoutLoss := by
  intro s t b rest hsound hin hi h
  obtain ⟨hdec, -, -⟩ := hsound
  obtain ⟨-, hcap, hbelow⟩ := hdec (mode_of_byteInTaken hin)
  obtain rfl := Host.Outcome.next.inj ((step_byteIn hin hi).symm.trans h)
  obtain ⟨hacc, -⟩ := receiveByte_frame b (keepInput rest (takeEvent s.script.tail s))
  refine ⟨placeGroup_toNat_of_le b hcap, ?_⟩
  rw [hacc]
  exact (accumulate_lt b hbelow).trans_le (Nat.pow_le_pow_right (by decide) (by omega))

/-! ### On a value of any width -/

/-- Groups from the `k`-th place on end below the place after the last (spec/41_decode.md R93). -/
theorem wireSum_add_le (k : Nat) (bytes : List Byte) :
    wireSum k bytes + 2 ^ (7 * k) ≤ 2 ^ (7 * (k + bytes.length)) := by
  induction bytes generalizing k with
  | nil => simp [wireSum]
  | cons b bytes ih =>
    have hroom := group_room b (2 ^ (7 * k))
    have hrest := ih (k + 1)
    have hnext : 2 ^ (7 * (k + 1)) = 128 * 2 ^ (7 * k) := by ring
    rw [wireSum, List.length_cons, show k + (bytes.length + 1) = k + 1 + bytes.length by omega]
    omega

/-- The loop after `k` bytes, which have left `n` modulo `2^w` (spec/41_decode.md R91, R93). -/
theorem accumulateAll_toNat {w : Nat} (bytes : List Byte) (k n : Nat) (acc : BitVec w) (hn : n < 2 ^ (7 * k))
    (hacc : acc.toNat = n % 2 ^ w) :
    (accumulateAll (7 * k) acc bytes).toNat = (n + wireSum k bytes) % 2 ^ w := by
  induction bytes generalizing k n acc with
  | nil => exact hacc
  | cons b bytes ih =>
    have hroom := group_room b (2 ^ (7 * k))
    have hnext : 2 ^ (7 * (k + 1)) = 128 * 2 ^ (7 * k) := by ring
    rw [accumulateAll, wireSum, ← Nat.add_assoc]
    exact ih (k + 1) _ _ (by omega) (accumulate_toNat acc n (7 * k) b hn hacc)

/-- The loop from its start (spec/41_decode.md R93). -/
theorem accumulateAll_zero_toNat (w : Nat) (bytes : List Byte) :
    (accumulateAll 0 (0#w) bytes).toNat = wireSum 0 bytes % 2 ^ w := by
  have h := accumulateAll_toNat bytes 0 0 (0#w) (by decide) (by simp)
  rwa [Nat.zero_add] at h

/-- Six bytes carry bits 0 to 41 (spec/41_decode.md R93). -/
theorem wireSum_lt {bytes : List Byte} (h : bytes.length ≤ 6) : wireSum 0 bytes < 2 ^ 42 := by
  have hle := wireSum_add_le 0 bytes
  have hcap : 2 ^ (7 * (0 + bytes.length)) ≤ 2 ^ 42 := Nat.pow_le_pow_right (by decide) (by omega)
  omega

/-- Settles O20: the loop is the sum modulo `2^w`, which is the sum itself where `2^42` fits; the example by computing. -/
theorem decoderDropsBitsAboveWidth : Obligations.DecoderDropsBitsAboveWidth := by
  refine ⟨accumulateAll_zero_toNat, fun w bytes hlen hw => ?_, by decide⟩
  have hsum := wireSum_lt hlen
  rw [accumulateAll_zero_toNat, Nat.mod_eq_of_lt (hsum.trans_le (Nat.pow_le_pow_right (by decide) hw))]
  exact ⟨rfl, hsum⟩

/-! ### A whole decode -/

/-- A decode reads at most as many bytes as it may (spec/41_decode.md R92). -/
theorem integerBytes_length_le (k : Nat) (bytes : List Byte) : (integerBytes k bytes).length ≤ k := by
  induction k generalizing bytes with
  | zero => simp [integerBytes]
  | succ k ih =>
    cases bytes with
    | nil => simp [integerBytes]
    | cons b bytes =>
      rw [integerBytes]
      split
      · simp
      · simpa using ih bytes

/-- A decode of a stream that holds an integer reads at least one byte (spec/41_decode.md R92). -/
theorem integerBytes_length_pos {k : Nat} {bytes : List Byte} (h : holdsInteger (k + 1) bytes = true) :
    1 ≤ (integerBytes (k + 1) bytes).length := by
  cases bytes with
  | nil => simp [holdsInteger] at h
  | cons b bytes =>
    rw [integerBytes]
    split <;> simp

/-- Settles O21: `DEC7` begins a decode with no group held, and the decode in flight reads the integer of the stream. -/
theorem decodeRunsToClosedForm : Obligations.DecodeRunsToClosedForm := by
  intro s v tail hold hs
  have hstep := command_taken hs
  rw [decode_encode] at hstep
  obtain ⟨t, hrun, hmode, hdone, hresult, hinput, hout, herr, hscript⟩ := decode_in_flight 5 0
    (beginDecode (takeEvent (List.replicate (integerBytes 6 s.input).length supplyEvent ++ tail) s)) tail
    rfl rfl rfl (by simp) hold rfl
  have hsum : t.result.toNat = wireSum 0 (integerBytes 6 s.input) := hresult.trans (Nat.zero_add _)
  refine ⟨t, (run_succ hstep _).trans hrun, integerBytes_length_pos hold, integerBytes_length_le 6 _, hmode, hdone, ?_,
    hinput, hout, herr, hscript⟩
  rw [← hsum, BitVec.ofNat_toNat, BitVec.setWidth_eq]

end Sys2Proof.Machine
end

section
/-! PROOFS. The encoder (spec/42_encode.md): the command that starts it, the presented byte, one byte out, a whole encode,
and the round trip through the decoder. -/

namespace Sys2Proof.Machine

/-! ### The presented byte -/

/-- The presented byte in bits: the group of the accumulator and its flag (spec/42_encode.md R111). -/
theorem presentedByte_eq (v : Value) :
    presentedByte v = (v.setWidth 8 &&& 0x7F#8) ||| (if v >>> 7 ≠ 0#64 then 0x80#8 else 0x00#8) := by
  rw [ite_not]
  rfl

/-- The presented byte is unflagged exactly when no value bits remain after it (spec/42_encode.md R111). -/
theorem presentedByte_lt_iff (v : Value) : (presentedByte v).toNat < 128 ↔ remaining v = 0#64 := by
  rw [presentedByte_toNat, remaining_eq_zero]
  split <;> omega

/-- Settles O23: the two valid signals compare `MODE`, and in `ENC` the output is the presented byte. -/
theorem portOutputsFollowMode : Obligations.PortOutputsFollowMode := by
  refine fun s => ⟨beq_iff_eq, beq_iff_eq, fun hm => ?_⟩
  rw [outByte_of_enc hm]
  exact ⟨presentedByte_eq s.acc, presentedByte_toNat s.acc⟩

/-! ### The command -/

/-- Settles O22: `ENC7` is `beginEncode` from every state, which presents byte 0 of the encoding; the two bytes by
computing. -/
theorem enc7StartsEncode : Obligations.Enc7StartsEncode := by
  intro v s
  have hbyte : outByte (beginEncode v s) = presentedByte v := outByte_of_enc (beginEncode_mode v s)
  refine ⟨beginEncode v s, rfl, rfl, rfl, hbyte.trans (encodedByte_zero v).symm, rfl, ?_, ?_⟩ <;> rintro rfl
  · exact hbyte.trans (by decide)
  · exact hbyte.trans (by decide)

/-! ### One byte out -/

/-- A byte is given in `ENC` only (spec/42_encode.md R112). -/
theorem mode_of_byteOutTaken {s : State} (h : byteOutTaken s = true) : s.mode = .enc := by
  unfold byteOutTaken at h
  split at h
  · simp only [Bool.and_eq_true, beq_iff_eq] at h
    obtain ⟨-, hmode⟩ := h
    exact hmode
  all_goals cases h

/-- The source's loop condition: bits remain after a group exactly from `0x80` on (spec/42_encode.md R112). -/
theorem remaining_ne_zero_iff (v : Value) : remaining v ≠ 0#64 ↔ 0x80 ≤ v.toNat :=
  (remaining_eq_zero v).not.trans not_lt

/-- `SIZE` counts the byte, whichever way the byte out ends (spec/42_encode.md R112). -/
theorem sendByte_size (s : State) : (sendByte s).size = s.size + 1#3 := by
  have hgroup : (sendGroup (outByteTo (presentedByte s.acc) s)).size = s.size + 1#3 := by
    rw [sendGroup_size, nextSize, BitVec.ofNat_add, outByteTo_size, BitVec.ofNat_toNat, BitVec.setWidth_eq]
  obtain ⟨-, h⟩ | ⟨-, h⟩ := sendByte_cases s <;> (rw [h]; exact hgroup)

/-- Which way a byte out ends, and what it writes of `MODE`, `DONE` and `RESULT` there (spec/42_encode.md R112, R113). -/
theorem sendByte_ends (s : State) :
    if s.acc >>> 7 ≠ 0#64 ∧ s.size.toNat + 1 ≤ 5
    then (sendByte s).mode = s.mode ∧ (sendByte s).done = s.done ∧ (sendByte s).result = s.result
    else (sendByte s).mode = .idle ∧ (sendByte s).done = true ∧ (sendByte s).result.toNat = s.size.toNat + 1 := by
  have hiff : encodeContinues (remaining s.acc) (nextSize s) = true ↔ s.acc >>> 7 ≠ 0#64 ∧ s.size.toNat + 1 ≤ 5 := by
    rw [encodeContinues, Bool.and_eq_true, bne_iff_ne, decide_eq_true_iff]
    rfl
  obtain ⟨hgo, h⟩ | ⟨hstop, h⟩ := sendByte_cases s <;> rw [h]
  · rw [if_pos (hiff.1 hgo)]
    exact ⟨rfl, rfl, rfl⟩
  · rw [if_neg (fun hc => by rw [hiff.2 hc] at hstop; cases hstop)]
    refine ⟨rfl, rfl, ?_⟩
    rw [complete_result, BitVec.toNat_ofNat, nextSize]
    omega

/-- Settles O24: the frame of a byte out and its two ends; the example steps are these at their values. -/
theorem byteOutSendsGroup : Obligations.ByteOutSendsGroup := by
  intro s _ hout
  have hmode := mode_of_byteOutTaken hout
  have hbyte := outByte_of_enc hmode
  obtain ⟨hacc, hshift, herr, hinput, houtput, hsamples, hscript, -⟩ := sendByte_frame (takeEvent s.script.tail s)
  have hsize := sendByte_size (takeEvent s.script.tail s)
  have hends := sendByte_ends (takeEvent s.script.tail s)
  simp only [takeEvent_mode, takeEvent_acc, takeEvent_size, takeEvent_done, takeEvent_result, takeEvent_output,
    hmode] at hacc hsize hends houtput
  rw [← hbyte] at houtput
  refine ⟨hmode, _, step_byteOut hout, houtput, hbyte.trans (presentedByte_eq s.acc), hacc, hsize, hends, hinput, hshift,
    herr, hsamples, hscript, remaining_ne_zero_iff s.acc, ?_, ?_⟩
  · intro ha hsz
    rw [ha] at hacc hbyte
    rw [hsz] at hsize
    rw [ha, hsz, if_pos (by decide)] at hends
    obtain ⟨hgoes, -⟩ := hends
    exact ⟨hbyte.trans (by decide), hacc, hsize, hgoes⟩
  · intro ha hsz
    rw [ha] at hacc hbyte
    rw [hsz] at hsize
    rw [ha, hsz, if_neg (by decide)] at hends
    obtain ⟨hidle, hdone, hresult⟩ := hends
    exact ⟨hbyte.trans (by decide), hacc, hsize, BitVec.eq_of_toNat_eq hresult, hdone, hidle⟩

/-! ### A whole encode -/

theorem encodedLength_pos (v : Value) : 1 ≤ encodedLength v := le_min (len7_pos v) (by decide)

theorem encodedLength_le_six (v : Value) : encodedLength v ≤ 6 := Nat.min_le_right _ _

/-- From `2^42` on the cap of six bytes binds (spec/42_encode.md R115). -/
theorem encodedLength_of_le {v : Value} (h : 2 ^ 42 ≤ v.toNat) : encodedLength v = 6 :=
  Nat.min_eq_right (Nat.le_of_lt (seven_le_len7 h))

/-- The wire value of the encoding is the value below the cap of 42 bits (spec/42_encode.md R114, R115). -/
theorem wireSum_encoding_eq_mod (v : Value) : wireSum 0 (encoding v) = v.toNat % 2 ^ 42 := by
  rw [wireSum_encoding]
  obtain hsmall | hlarge := Nat.lt_or_ge v.toNat (2 ^ 42)
  · rw [encodedLength_of_lt hsmall, Nat.mod_eq_of_lt (toNat_lt_two_pow_len7 v), Nat.mod_eq_of_lt hsmall]
  · rw [encodedLength_of_le hlarge]

/-- An encode and as many takes as it has bytes: it has ended, and all of the encoding is in the output stream
(spec/42_encode.md R113). -/
theorem run_whole_encode {s : State} {v : Value} {tail : List HostEvent}
    (hs : s.script = encodeScript v (encodedLength v) tail) :
    ∃ t : State, Host.Core.run core (encodedLength v + 1) s = .next t ∧ t.mode = .idle ∧ t.done = true ∧
      t.output = s.output ++ encoding v ∧ t.result.toNat = encodedLength v ∧ t.input = s.input ∧
      t.cmdErr = s.cmdErr ∧ t.script = tail := by
  obtain ⟨t, hrun, hout, hinput, herr, hscript, hend⟩ := run_encodeScript hs
  obtain ⟨hmode, hdone, hresult⟩ := hend le_rfl
  rw [List.take_of_length_le (encoding_length v).le] at hout
  exact ⟨t, hrun, hmode, hdone, hout, hresult, hinput, herr, hscript⟩

/-- Settles O25: the whole encode, whose number of bytes is at least one and capped at six. -/
theorem encodeRunsToEncoding : Obligations.EncodeRunsToEncoding := by
  intro s v tail hs
  obtain ⟨t, hrun, hrest⟩ := run_whole_encode hs
  exact ⟨t, hrun, encodedLength_pos v, encodedLength_le_six v, rfl, hrest⟩

/-- From `2^42` on every emitted byte is flagged, the sixth too (spec/42_encode.md R115). -/
theorem flagged_of_mem_encoding {v : Value} (h : 2 ^ 42 ≤ v.toNat) {b : Byte} (hb : b ∈ encoding v) : 128 ≤ b.toNat := by
  have hlen := seven_le_len7 h
  rw [encoding, encodedLength_of_le h] at hb
  obtain ⟨k, hk, rfl⟩ := List.mem_map.1 hb
  rw [List.mem_range] at hk
  rw [encodedByte_toNat, if_pos (by omega)]
  exact Nat.le_add_left _ _

/-- Settles O27: the whole encode at the cap, every byte of which has value bits above it. -/
theorem oversizedValueTruncated : Obligations.OversizedValueTruncated := by
  intro v s tail hv hs
  have hlen := encodedLength_of_le hv
  rw [← hlen] at hs
  obtain ⟨t, hrun, hmode, hdone, hout, hresult, -, herr, -⟩ := run_whole_encode hs
  rw [hlen] at hrun hresult
  exact ⟨t, encoding v, hrun, hmode, hdone, BitVec.eq_of_toNat_eq hresult, herr, hout, (encoding_length v).trans hlen,
    fun b hb => flagged_of_mem_encoding hv hb, wireSum_encoding_eq_mod v⟩

/-- Settles O28: each row's bytes are the encoding of its value, by computing; the rest is the whole encode. -/
theorem encoderCornerCases : Obligations.EncoderCornerCases := by
  intro row hrow
  have hbytes : encoding row.1 = row.2 := by
    revert row; decide
  intro s tail hs
  have hlen : row.2.length = encodedLength row.1 := by rw [← hbytes, encoding_length]
  rw [hlen] at hs ⊢
  obtain ⟨t, hrun, hmode, hdone, hout, hresult, -⟩ := run_whole_encode hs
  rw [hbytes] at hout
  refine ⟨t, hrun, hout, hmode, hdone, ?_⟩
  rw [← hresult, BitVec.ofNat_toNat, BitVec.setWidth_eq]

/-- Settles O29: the takes receive the first bytes of the encoding, whatever the state. -/
theorem encodingDependsOnValueOnly : Obligations.EncodingDependsOnValueOnly := by
  intro v n s₁ s₂ tail₁ tail₂ hs₁ hs₂
  obtain ⟨t₁, hrun₁, hout₁, -⟩ := run_encodeScript hs₁
  obtain ⟨t₂, hrun₂, hout₂, -⟩ := run_encodeScript hs₂
  exact ⟨t₁, t₂, _, hrun₁, hrun₂, hout₁, hout₂, rfl⟩

/-! ### The round trip -/

/-- The emitted bytes are one whole integer of the wire format: each flag but the last is set, and the last is clear or at
the cap (spec/42_encode.md R119). -/
theorem integerBytes_emits (c : Nat) (v : Value) (left : List Byte) :
    integerBytes c (emits c v ++ left) = emits c v ∧ holdsInteger c (emits c v ++ left) = true := by
  induction c generalizing v with
  | zero => exact ⟨rfl, rfl⟩
  | succ c ih =>
    by_cases hrem : remaining v = 0#64
    · have hclear := (presentedByte_lt_iff v).2 hrem
      simp [emits_last hrem, integerBytes, holdsInteger, hclear]
    · have hflag : ¬ (presentedByte v).toNat < 128 := (presentedByte_lt_iff v).not.2 hrem
      obtain ⟨hbytes, hholds⟩ := ih (remaining v)
      simp [emits_more hrem, integerBytes, holdsInteger, hflag, hbytes, hholds]

/-- A decode of an encoding reads exactly its bytes, whatever follows, and gives the value modulo `2^42`
(spec/42_encode.md R119). -/
theorem decode_of_encoding {v u : Value} {s : State} {left : List Byte} {tail : List HostEvent}
    (hi : s.input = encoding v ++ left) (hs : s.script = decodeScript u (encoding v).length tail) :
    ∃ t : State, Host.Core.run core ((encoding v).length + 1) s = .next t ∧ t.mode = .idle ∧ t.done = true ∧
      t.result.toNat = v.toNat % 2 ^ 42 ∧ t.input = left := by
  obtain ⟨hbytes, hholds⟩ := integerBytes_emits 6 v left
  rw [emits_six, ← hi] at hbytes hholds
  rw [← hbytes] at hs
  obtain ⟨t, hrun, -, -, hmode, hdone, hresult, hinput, -⟩ := decodeRunsToClosedForm s u tail hholds hs
  rw [hbytes] at hrun hresult hinput
  rw [wireSum_encoding_eq_mod] at hresult
  refine ⟨t, hrun, hmode, hdone, ?_, ?_⟩
  · rw [hresult, BitVec.toNat_ofNat]
    omega
  · exact List.append_cancel_left (hinput.symm.trans hi)

/-- Settles O30: the whole encode puts out the encoding, and a decode of it is the round trip. -/
theorem roundTripModuloCap : Obligations.RoundTripModuloCap := by
  intro v s tail hs
  obtain ⟨t, hrun, hmode, -, hout, hresult, -⟩ := run_whole_encode hs
  refine ⟨t, encoding v, hrun, hout, hmode, ?_, ?_, fun s' left u tail' hi hs' => decode_of_encoding hi hs'⟩ <;>
    rw [encoding_length]
  · exact hresult
  · exact fun hv => (encodedLength_of_lt hv).symm

end Sys2Proof.Machine
end

section
/-! PROOFS. Exceptions and the order of events (spec/60_exceptions.md): what is taken of events presented together, the one
stop of the machine, and the run that stays faulted. -/

namespace Sys2Proof.Machine

/-! ### Events presented together -/

/-- Two host events that do the same once taken off the script make the same step. -/
theorem step_eq_of_takeHostEvent_eq {s : State} {e e' : HostEvent} {rest : List HostEvent} (hs : s.script = e :: rest)
    (h : takeHostEvent e (takeEvent rest s) = takeHostEvent e' (takeEvent rest s)) :
    step s = step { s with script := e' :: rest } := by
  rw [step_cons hs, h]
  exact (step_cons (s := { s with script := e' :: rest }) rfl).symm

/-- A reset is taken whatever stands beside it (spec/60_exceptions.md R135). -/
theorem takePresented_of_reset {p : Presented} (hr : p.reset = true) (s : State) :
    takePresented p s = .next (takeReset s) := by
  simp [takePresented, hr]

/-- A command without a reset is taken whatever transfer stands beside it (spec/60_exceptions.md R135). -/
theorem takePresented_of_command {p : Presented} {w : CmdWord} (hr : p.reset = false) (hc : p.command = some w)
    (s : State) : takePresented p s = exec (decode w) s := by
  simp [takePresented, hr, hc]

theorem takePresented_of_transfer {p : Presented} (hr : p.reset = false) (hc : p.command = none) (s : State) :
    takePresented p s = transfer p.supply p.take s := by
  simp [takePresented, hr, hc]

/-- A decode takes no notice of a take (spec/20_memory.md R54). -/
theorem transfer_of_dec {s : State} (hm : s.mode = .dec) (supply take take' : Bool) :
    transfer supply take s = transfer supply take' s := by
  simp [transfer, hm]

/-- An encode takes no notice of an offer (spec/20_memory.md R54). -/
theorem transfer_of_enc {s : State} (hm : s.mode = .enc) (supply supply' take : Bool) :
    transfer supply take s = transfer supply' take s := by
  simp [transfer, hm]

/-- A reset or a command answers a next state and moves no byte of either stream (spec/60_exceptions.md R135,
70_reset_and_hazards.md R151). -/
theorem takePresented_keeps_streams {p : Presented} (h : p.reset = true ∨ p.command.isSome = true) (s : State) :
    ∃ t, takePresented p s = .next t ∧ t.input = s.input ∧ t.output = s.output := by
  cases hr : p.reset with
  | true => exact ⟨_, takePresented_of_reset hr s, rfl, rfl⟩
  | false =>
    have hsome : p.command.isSome = true := by simpa [hr] using h
    obtain ⟨w, hc⟩ := Option.isSome_iff_exists.1 hsome
    obtain ⟨t, ht⟩ := exec_completes (decode w) s
    exact ⟨t, (takePresented_of_command hr hc s).trans ht, exec_keeps_streams ht⟩

/-- Settles O9: one rule of `takePresented` for each clause, used for the events together and for the one alone. -/
theorem simultaneousEventsTakenInOrder : Obligations.SimultaneousEventsTakenInOrder := by
  intro s p rest hs
  refine ⟨fun hr => ?_, fun w hr hc => ?_, fun h => ?_, fun hr hc hm hsupply => ?_, fun hr hc hm htake => ?_⟩
  · apply step_eq_of_takeHostEvent_eq hs
    exact takePresented_of_reset hr _
  · apply step_eq_of_takeHostEvent_eq hs
    exact takePresented_of_command hr hc _
  · rw [step_cons hs]
    exact takePresented_keeps_streams h (takeEvent rest s)
  · apply step_eq_of_takeHostEvent_eq hs
    refine (takePresented_of_transfer hr hc _).trans ?_
    rw [hsupply]
    exact transfer_of_dec (s := takeEvent rest s) hm true p.take false
  · apply step_eq_of_takeHostEvent_eq hs
    refine (takePresented_of_transfer hr hc _).trans ?_
    rw [htake]
    exact transfer_of_enc (s := takeEvent rest s) hm p.supply false true

/-! ### The one stop -/

/-- A read is the step that notes its words, or the fault of reading `RESULT` early (spec/70_reset_and_hazards.md R153). -/
theorem step_read_cases {s : State} {sel : ReadSel} {rest : List HostEvent} (hs : s.script = .read sel :: rest) :
    ((sel = .status ∨ s.done = true) ∧ ∃ t, step s = .next t) ∨
    (sel ≠ .status ∧ s.done = false ∧ step s = .fault .resultUnspecified) := by
  obtain ⟨xs, hadm, hx⟩ | ⟨hsel, hd, hx⟩ := readWords_cases sel s
  · exact .inl ⟨hadm, _, step_read hs hx⟩
  · refine .inr ⟨hsel, hd, ?_⟩
    rw [step_cons hs, takeHostEvent, execRead, readWords_takeEvent, hx]

/-- A step answers a next state, unless it is a read of `RESULT` while `DONE = 0` (spec/60_exceptions.md R130, R140). -/
theorem step_completes_or_early_read (s : State) :
    (∃ t, step s = .next t) ∨
    (step s = .fault .resultUnspecified ∧ s.done = false ∧ ∃ sel rest, s.script = .read sel :: rest ∧ sel ≠ .status) := by
  cases hs : s.script with
  | nil => exact .inl ⟨s, step_nil hs⟩
  | cons e rest =>
    cases e with
    | present p =>
      rw [step_cons hs]
      exact .inl (takePresented_completes p (takeEvent rest s))
    | read sel =>
      obtain ⟨-, hnext⟩ | ⟨hsel, hd, hfault⟩ := step_read_cases hs
      · exact .inl hnext
      · exact .inr ⟨hfault, hd, sel, rest, rfl, hsel⟩

/-- A read of `RESULT` while `DONE = 0` stops the step, in any `MODE` (spec/70_reset_and_hazards.md R153). -/
theorem step_early_read {s : State} {sel : ReadSel} {rest : List HostEvent} (hs : s.script = .read sel :: rest)
    (hsel : sel ≠ .status) (hd : s.done = false) : step s = .fault .resultUnspecified := by
  obtain ⟨hadm, -⟩ | ⟨-, -, hfault⟩ := step_read_cases hs
  · simp [hsel, hd] at hadm
  · exact hfault

/-- Settles O10: a step that stops is the early read, and the early read stops. -/
theorem onlyEarlyResultReadFaults : Obligations.OnlyEarlyResultReadFaults := by
  intro s
  refine ⟨fun f => ⟨fun hf => ?_, ?_⟩, fun r hr => ?_⟩
  · obtain ⟨t, ht⟩ | ⟨hfault, hearly⟩ := step_completes_or_early_read s
    · cases ht.symm.trans hf
    · cases hfault.symm.trans hf
      exact ⟨rfl, hearly⟩
  · rintro ⟨rfl, hd, sel, rest, hs, hsel⟩
    exact step_early_read hs hsel hd
  · obtain ⟨t, ht⟩ | ⟨hfault, -⟩ := step_completes_or_early_read s
    · cases ht.symm.trans hr
    · cases hfault.symm.trans hr

/-! ### The faulted run -/

/-- A command takes nothing more off the script (spec/10_state.md R30). -/
theorem exec_keeps_script {i : Instr} {s t : State} (h : exec i s = .next t) : t.script = s.script := by
  obtain ⟨v, -, rfl⟩ | ⟨v, -, rfl⟩ | ⟨v, -, rfl⟩ | ⟨v, -, rfl⟩ := exec_cases h <;> rfl

/-- A step takes exactly the host's next event off its script, whatever the event is (spec/00_scope.md R12). -/
theorem step_script {s t : State} (h : step s = .next t) : t.script = s.script.tail := by
  obtain ⟨hs, rfl⟩ | ⟨-, rfl⟩ | ⟨w, -, hx⟩ | ⟨-, -, b, rest, -, rfl⟩ | ⟨-, -, rfl⟩ | ⟨-, -, -, -, xs, rfl⟩ := step_cases h
  · simp [hs]
  · rfl
  · exact exec_keeps_script hx
  · obtain ⟨-, -, -, -, -, -, hscript, -⟩ := receiveByte_frame b (keepInput rest (takeEvent s.script.tail s))
    exact hscript
  · obtain ⟨-, -, -, -, -, -, hscript, -⟩ := sendByte_frame (takeEvent s.script.tail s)
    exact hscript
  · rfl

theorem noReset_tail {events : List HostEvent} (h : noReset events = true) : noReset events.tail = true := by
  cases events with
  | nil => rfl
  | cons e rest =>
    cases e with
    | present p => exact (Bool.and_eq_true_iff.1 h).2
    | read sel => exact h

theorem resetPresented_of_noReset {s : State} (h : noReset s.script = true) : resetPresented s = false := by
  rw [resetPresented]
  cases hs : s.script with
  | nil => rfl
  | cons e rest =>
    rw [hs] at h
    cases e with
    | present p => simpa using (Bool.and_eq_true_iff.1 h).1
    | read sel => rfl

/-- A step of a faulted run that presents no reset leaves one (spec/60_exceptions.md R131). -/
theorem step_keeps_faulted {s t : State} (h : step s = .next t) (hf : Faulted s) (hn : noReset s.script = true) :
    Faulted t ∧ noReset t.script = true := by
  refine ⟨(cmdErrIsSticky s t h).2 ⟨resetPresented_of_noReset hn, .inl hf⟩, ?_⟩
  rw [step_script h]
  exact noReset_tail hn

/-- Settles O33: by induction on the number of steps; each keeps the bit and a script without reset. -/
theorem faultedForGood : Obligations.FaultedForGood := by
  intro k
  induction k with
  | zero =>
    intro s t hf _ h
    cases h
    exact hf
  | succ k ih =>
    intro s t hf hn h
    obtain ⟨u, hu, hrun⟩ := run_succ_inv h
    obtain ⟨hf', hn'⟩ := step_keeps_faulted hu hf hn
    exact ih u t hf' hn' hrun

end Sys2Proof.Machine
end

section
/-! PROOFS. Reset and hazards (spec/70_reset_and_hazards.md): a reset from any state, the early read of `RESULT`, a command
over an operation in flight, and the six transfers that end an operation. -/

namespace Sys2Proof.Machine

/-! ### Reset and the early read -/

/-- `STATUS` reads zero where the block is `IDLE` with neither flag set (spec/10_state.md R28). -/
theorem statusWord_eq_zero {s : State} (hm : s.mode = .idle) (hd : s.done = false) (he : s.cmdErr = false) :
    statusWord s = 0x00#8 := by
  rw [statusWord, hm, hd, he]
  decide

/-- Settles O12: the step is `takeReset`, which writes the registers and leaves the host's side. -/
theorem resetStepFromAnyState : Obligations.ResetStepFromAnyState :=
  fun _ hr => ⟨_, step_reset hr, rfl, rfl, rfl, statusWord_eq_zero rfl rfl rfl, rfl, rfl, rfl, rfl, rfl, rfl, rfl⟩

/-- Settles O36: the read is the one stop of a step. -/
theorem earlyResultReadFaults : Obligations.EarlyResultReadFaults :=
  fun _ _ _ => step_early_read

/-! ### A command over an operation in flight -/

/-- Two states that differ in the operation in flight only: `CMD_ERR` and the host's side are equal. -/
def SameButOperation (s₁ s₂ : State) : Prop :=
  s₁.cmdErr = s₂.cmdErr ∧ s₁.input = s₂.input ∧ s₁.output = s₂.output ∧ s₁.samples = s₂.samples ∧
    s₁.script = s₂.script ∧ s₁.tick = s₂.tick

section SameButOperation

variable {s₁ s₂ : State}

/-- A completion writes all that is read in `IDLE`: `MODE`, `DONE` and `RESULT` (spec/10_state.md R25). -/
theorem SameButOperation.sameView_complete (h : SameButOperation s₁ s₂) (v : Value) :
    SameView (complete v s₁) (complete v s₂) := by
  obtain ⟨herr, hhost⟩ := h
  exact ⟨⟨rfl, rfl, herr⟩, hhost, nofun, nofun, fun _ => rfl⟩

/-- `DEC7` writes all that is read in `DEC`: `MODE`, `DONE`, `ACC` and `SHIFT` (spec/10_state.md R22, R23). -/
theorem SameButOperation.sameView_beginDecode (h : SameButOperation s₁ s₂) :
    SameView (beginDecode s₁) (beginDecode s₂) := by
  obtain ⟨herr, hhost⟩ := h
  exact ⟨⟨rfl, rfl, herr⟩, hhost, fun _ => ⟨rfl, rfl⟩, nofun, nofun⟩

/-- `ENC7` writes all that is read in `ENC`: `MODE`, `DONE`, `ACC` and `SIZE` (spec/10_state.md R22, R24). -/
theorem SameButOperation.sameView_beginEncode (h : SameButOperation s₁ s₂) (v : Value) :
    SameView (beginEncode v s₁) (beginEncode v s₂) := by
  obtain ⟨herr, hhost⟩ := h
  exact ⟨⟨rfl, rfl, herr⟩, hhost, nofun, fun _ => ⟨rfl, rfl⟩, nofun⟩

/-- The three commands start afresh (spec/70_reset_and_hazards.md R154). -/
theorem SameButOperation.sameView_exec {i : Instr} {t₁ t₂ : State} (h : SameButOperation s₁ s₂)
    (hcommand : ∀ v, i ≠ .reserved v) (h₁ : exec i s₁ = .next t₁) (h₂ : exec i s₂ = .next t₂) : SameView t₁ t₂ := by
  cases i with
  | len7 v => cases h₁; cases h₂; exact h.sameView_complete _
  | dec7 v => cases h₁; cases h₂; exact h.sameView_beginDecode
  | enc7 v => cases h₁; cases h₂; exact h.sameView_beginEncode v
  | reserved v => exact absurd rfl (hcommand v)

end SameButOperation

/-- Only `LEN7` writes `RESULT` in its own step (spec/10_state.md R25, 41_decode.md R97). -/
theorem exec_keeps_result {i : Instr} {s t : State} (hi : ∀ v, i ≠ .len7 v) (h : exec i s = .next t) :
    t.result = s.result := by
  obtain ⟨v, rfl, -⟩ | ⟨v, -, rfl⟩ | ⟨v, -, rfl⟩ | ⟨v, -, rfl⟩ := exec_cases h
  · exact absurd rfl (hi v)
  all_goals rfl

/-- Settles O42: what the operation in flight held is written over or no longer read (`SameButOperation.sameView_exec`); the
reserved word writes `CMD_ERR` alone. -/
theorem commandAbandonsOperation : Obligations.CommandAbandonsOperation := by
  refine ⟨fun i s₁ s₂ hcommand herr hinput houtput hsamples hscript htick => ?_, fun v s t h => ?_⟩
  · have hsame : SameButOperation s₁ s₂ := ⟨herr, hinput, houtput, hsamples, hscript, htick⟩
    obtain ⟨t₁, h₁⟩ := exec_completes i s₁
    obtain ⟨t₂, h₂⟩ := exec_completes i s₂
    obtain ⟨hin, hout⟩ := exec_keeps_streams h₁
    exact ⟨t₁, t₂, h₁, h₂, hsame.sameView_exec hcommand h₁ h₂, hin, hout,
      fun hi => ⟨exec_keeps_result hi h₁, exec_keeps_result hi h₂⟩⟩
  · obtain ⟨-, hreserved⟩ := reservedSetsCmdErrOnly
    obtain rfl := Host.Outcome.next.inj ((hreserved v s).symm.trans h)
    exact ⟨rfl, rfl, rfl, rfl, rfl, rfl⟩

/-! ### Six transfers end an operation -/

/-- A stream as long as the cap holds a whole integer, flags or not (spec/30_encoding.md R63). -/
theorem holdsInteger_of_le_length {k : Nat} {bytes : List Byte} (h : k ≤ bytes.length) : holdsInteger k bytes = true := by
  induction k generalizing bytes with
  | zero => rfl
  | succ k ih =>
    cases bytes with
    | nil => cases h
    | cons b bytes => rw [holdsInteger, ih (Nat.le_of_succ_le_succ h), Bool.or_true]

/-- A host that offers six transfers offers the first `n` of them and then the others. -/
theorem replicate_six_append {n : Nat} (h : n ≤ 6) (e : HostEvent) (tail : List HostEvent) :
    List.replicate 6 e ++ tail = List.replicate n e ++ (List.replicate (6 - n) e ++ tail) := by
  rw [← List.append_assoc, List.replicate_append_replicate, Nat.add_sub_cancel' h]

/-- An encode that may still emit `c + 1` bytes emits at least one of them and no more (spec/42_encode.md R113). -/
theorem emits_length_bounds (c : Nat) (v : Value) : 1 ≤ (emits (c + 1) v).length ∧ (emits (c + 1) v).length ≤ c + 1 := by
  have hpos := len7_pos v
  rw [emits_eq, List.length_map, List.length_range]
  omega

/-- A decode in flight ends within six supplied bytes: `SHIFT` counts the bytes read, and the stream holds as many as may
still be read (spec/70_reset_and_hazards.md R161, 41_decode.md R92). -/
theorem decode_ends_within_six {s : State} {tail : List HostEvent} (hsound : RegistersSound s) (hm : s.mode = .dec)
    (hlen : 6 ≤ s.input.length) (hs : s.script = List.replicate 6 supplyEvent ++ tail) :
    ∃ (k : Nat) (t : State), 1 ≤ k ∧ k ≤ 6 ∧ Host.Core.run core k s = .next t ∧ t.mode = .idle ∧ t.done = true := by
  obtain ⟨hdec, -, -⟩ := hsound
  obtain ⟨hgroups, hcap, hacc⟩ := hdec hm
  obtain ⟨read, hread⟩ := Nat.dvd_of_mod_eq_zero hgroups
  rw [hread] at hacc
  obtain ⟨c, hc⟩ := Nat.exists_eq_add_of_le (by omega : read ≤ 5)
  have hholds : holdsInteger (c + 1) s.input = true := holdsInteger_of_le_length (by omega)
  have hle := integerBytes_length_le (c + 1) s.input
  rw [replicate_six_append (by omega : (integerBytes (c + 1) s.input).length ≤ 6)] at hs
  obtain ⟨t, hrun, hidle, hdone, -⟩ := decode_in_flight c read s _ hc.symm hm hread hacc hholds hs
  exact ⟨_, t, integerBytes_length_pos hholds, by omega, hrun, hidle, hdone⟩

/-- An encode in flight ends within six takes: `SIZE` counts the bytes sent (spec/70_reset_and_hazards.md R161,
42_encode.md R113). -/
theorem encode_ends_within_six {s : State} {tail : List HostEvent} (hsound : RegistersSound s) (hm : s.mode = .enc)
    (hs : s.script = List.replicate 6 takeByteEvent ++ tail) :
    ∃ (k : Nat) (t : State), 1 ≤ k ∧ k ≤ 6 ∧ Host.Core.run core k s = .next t ∧ t.mode = .idle ∧ t.done = true := by
  obtain ⟨-, henc, -⟩ := hsound
  obtain ⟨hcap, -, -⟩ := henc hm
  obtain ⟨c, hc⟩ := Nat.exists_eq_add_of_le hcap
  obtain ⟨hpos, hle⟩ := emits_length_bounds c s.acc
  rw [replicate_six_append (by omega : (emits (c + 1) s.acc).length ≤ 6)] at hs
  obtain ⟨t, hrun, -, -, -, -, hend⟩ := encode_in_flight c _ s _ hm hc.symm hs
  obtain ⟨hidle, hdone, -⟩ := hend le_rfl
  exact ⟨_, t, hpos, by omega, hrun, hidle, hdone⟩

/-- Settles O46: a bound for each operation, from any point of it. -/
theorem operationsEndWithinSixTransfers : Obligations.OperationsEndWithinSixTransfers :=
  ⟨fun _ _ => decode_ends_within_six, fun _ _ => encode_ends_within_six⟩

end Sys2Proof.Machine
end
